-- ==== Sys2Proof/Word.lean ====
section
/-! DEFINITION. The two bit-vector types of the engine: every chaining-state word, schedule word and bus word has 32
bits, every block, buffer and digest element 8 (00_scope.md rule R6). -/

namespace Sys2Proof

/-- A 32-bit word (00_scope.md R6: "word width | 32 bits"). `+` on it is addition modulo 2^32 (R8). -/
abbrev Word := BitVec 32

/-- An 8-bit byte of BUF, BLK or DIGEST. -/
abbrev Byte := BitVec 8

end Sys2Proof
end

