-- ==== Sys2Proof/Machine/Bytes.lean ====
section
/-! DEFINITION. Bit slices, byte packing and byte order (00_scope.md rules R7 and R9), and a block built from a byte list. -/

namespace Sys2Proof.Machine

/-- `be32(b0,b1,b2,b3) = b0<<24 | b1<<16 | b2<<8 | b3` (00_scope.md R9). -/
def be32 (b0 b1 b2 b3 : Byte) : Word :=
  (b0.setWidth 32 <<< 24) ||| (b1.setWidth 32 <<< 16) ||| (b2.setWidth 32 <<< 8) ||| b3.setWidth 32

/-- `le32(b0,b1,b2,b3) = b3<<24 | b2<<16 | b1<<8 | b0` (00_scope.md R9). -/
def le32 (b0 b1 b2 b3 : Byte) : Word :=
  (b3.setWidth 32 <<< 24) ||| (b2.setWidth 32 <<< 16) ||| (b1.setWidth 32 <<< 8) ||| b0.setWidth 32

/-- Byte `j` of a value of any width: bits `8j+7 : 8j` (00_scope.md R7). -/
def byteOf {w : Nat} (v : BitVec w) (j : Nat) : Byte := v.extractLsb' (8 * j) 8

/-- `be32bytes(w)`: the bytes `w[31:24], w[23:16], w[15:8], w[7:0]` (00_scope.md R9). -/
def be32bytes (w : Word) : List Byte := [byteOf w 3, byteOf w 2, byteOf w 1, byteOf w 0]

/-- `le32bytes(w)`: the bytes `w[7:0], w[15:8], w[23:16], w[31:24]` (00_scope.md R9). -/
def le32bytes (w : Word) : List Byte := [byteOf w 0, byteOf w 1, byteOf w 2, byteOf w 3]

/-- `be64bytes(v)`: the 8 bytes `v[63:56], ..., v[7:0]` (00_scope.md R9). -/
def be64bytes (v : BitVec 64) : List Byte :=
  [byteOf v 7, byteOf v 6, byteOf v 5, byteOf v 4, byteOf v 3, byteOf v 2, byteOf v 1, byteOf v 0]

/-- `le64bytes(v)`: the 8 bytes `v[7:0], ..., v[63:56]` (00_scope.md R9). -/
def le64bytes (v : BitVec 64) : List Byte :=
  [byteOf v 0, byteOf v 1, byteOf v 2, byteOf v 3, byteOf v 4, byteOf v 5, byteOf v 6, byteOf v 7]

/-- `zeros(k)`: `k` bytes of 0x00 (00_scope.md R9). -/
def zeros (k : Nat) : List Byte := List.replicate k 0

/-- A byte list as `n` bytes at the indices 0 to n-1 (missing bytes read 0; every caller gives exactly `n`, see
Laws/Padder.lean and Laws/Digest.lean). -/
def bytesOf (n : Nat) (l : List Byte) : Vector Byte n := Vector.ofFn fun i => l.getD i.val 0

end Sys2Proof.Machine
end

