-- ==== Sys2Proof/Syntax.lean ====
section
/-! DEFINITION. The commands of the engine: one constructor per row of spec/opcode_table.json (30_encoding.md rule R74).
An operand is the number its field holds (R73: "no sign extension, scaling or shifting"). -/

namespace Sys2Proof

/-- A command word's meaning, 30_encoding.md R74, R75. -/
inductive Instr where
  /-- NOP = 0x00000000 (44_driver.md R190). -/
  | nop
  /-- INIT with the algorithm selector `alg = c[7:4]`; 0 and 1 are legal (44_driver.md R181, R182). -/
  | init (alg : Nat)
  /-- NEXT with the byte count `n = c[14:8]`; 0 to 64 are legal (40_padder.md R109). -/
  | next (n : Nat)
  /-- COMPRESS = 0x00000003 (42_compression.md R160). -/
  | compress
  /-- ABORT = 0x00000004 (44_driver.md R188). -/
  | abort
deriving DecidableEq, Repr

end Sys2Proof
end

