-- ==== Sys2Proof/WellFormed.lean ====
section
/-! DEFINITION. Which commands a 32-bit word can hold: each operand fits its field (30_encoding.md rules R71, R73). Whether
an operand is legal (INIT with alg > 1, NEXT with n > 64) is not a question of form: such a command is a "well-formed
encoding with an illegal operand value" (R77) and its meaning records the error. -/

namespace Sys2Proof

/-- The ALG field has 4 bits (30_encoding.md R71). -/
abbrev algFits (alg : Nat) : Prop := alg < 16

/-- The N field has 7 bits (30_encoding.md R71). -/
abbrev countFits (n : Nat) : Prop := n < 128

/-- A well-formed command: every operand is a value its field can hold (30_encoding.md R71, R73). -/
def Instr.wf : Instr → Bool
  | .nop => true
  | .init alg => decide (algFits alg)
  | .next n => decide (countFits n)
  | .compress => true
  | .abort => true

/-- Well-formedness as a proposition. -/
abbrev Instr.WellFormed (i : Instr) : Prop := i.wf = true

end Sys2Proof
end

