-- ==== Sys2Proof/Decode.lean ====
section
/-! DEFINITION. The decoder of 30_encoding.md rule R75, total on every 32-bit word and on every byte list, and the encoder
written from the layouts of rule R72. A word no row matches is ILLEGAL; the decoder says which kind (rule R76). -/

namespace Sys2Proof

/-- Why a command is no command: the kinds of illegal encoding of 30_encoding.md R76, and a byte list too short to
hold the 4 bytes of a word (R70). Every kind but `truncated` is the spec's ILLEGAL. -/
inductive DecodeError where
  /-- OP in 0x5..0xF. -/
  | reservedOpcode (op : Nat)
  /-- OP = 0 and some other bit set. -/
  | nopBitsSet
  /-- An INIT with any of bits 31:8 set. -/
  | initBitsSet
  /-- A NEXT with any of bits 7:4 or 31:15 set. -/
  | nextBitsSet
  /-- A COMPRESS with any of bits 31:4 set. -/
  | compressBitsSet
  /-- An ABORT with any of bits 31:4 set. -/
  | abortBitsSet
  /-- Fewer than four bytes. -/
  | truncated
deriving DecidableEq, Repr

/-- The OP field `c[3:0]` (30_encoding.md R71). -/
def opField (c : Word) : Nat := (c.extractLsb' 0 4).toNat

/-- The ALG field `c[7:4]` (30_encoding.md R71). -/
def algField (c : Word) : Nat := (c.extractLsb' 4 4).toNat

/-- The N field `c[14:8]` (30_encoding.md R71). -/
def countField (c : Word) : Nat := (c.extractLsb' 8 7).toNat

/-- `decode(c)` of 30_encoding.md R75. -/
def decode (c : Word) : Except DecodeError Instr :=
  match opField c with
  | 0 => if c = 0 then .ok .nop else .error .nopBitsSet
  | 1 => if c.extractLsb' 8 24 = 0 then .ok (.init (algField c)) else .error .initBitsSet
  | 2 =>
    if c.extractLsb' 4 4 = 0 ∧ c.extractLsb' 15 17 = 0 then .ok (.next (countField c))
    else .error .nextBitsSet
  | 3 => if c.extractLsb' 4 28 = 0 then .ok .compress else .error .compressBitsSet
  | 4 => if c.extractLsb' 4 28 = 0 then .ok .abort else .error .abortBitsSet
  | op => .error (.reservedOpcode op)

/-- Decoding from bytes as the bus carries them (20_memory.md R53: the byte at the lowest offset is bits 7:0): "A decoder
always consumes exactly 4 bytes" (30_encoding.md R70), and the bytes after them are given back. -/
def decodeBytes : List Byte → Except DecodeError (Instr × List Byte)
  | b0 :: b1 :: b2 :: b3 :: rest =>
    match decode (Machine.le32 b0 b1 b2 b3) with
    | .ok i => .ok (i, rest)
    | .error e => .error e
  | _ => .error .truncated

/-- The word of a command, from the layouts of 30_encoding.md R72: OP in bits 3:0, `a` in bits 7:4, `n` in bits 14:8. -/
def encode : Instr → Word
  | .nop => 0x00000000#32
  | .init alg => (BitVec.ofNat 32 (alg % 16) <<< 4) ||| 0x00000001#32
  | .next n => (BitVec.ofNat 32 (n % 128) <<< 8) ||| 0x00000002#32
  | .compress => 0x00000003#32
  | .abort => 0x00000004#32

/-- The four bytes of a command in bus order. -/
def encodeBytes (i : Instr) : List Byte := Machine.le32bytes (encode i)

/-- What the decoder reads from an opcode-table word: bit 0 is the least significant bit of the first (only) word, and
the bits from `nbits` up are 0. -/
def decodeTableWord (nbits w : Nat) : Option Instr :=
  match decodeBytes (Machine.le32bytes (BitVec.ofNat 32 (w % 2 ^ nbits))) with
  | .ok (i, _) => some i
  | .error _ => none

end Sys2Proof
end

