-- ==== Sys2Proof/Config.lean ====
section
/-! DEFINITION. The free values: what the spec calls "any value" (00_scope.md rule R10: "a value the model draws freely,
under no law"). Each is a constant without a body, applied to an index that is drawn once (State.draws counts the
indices used), so that no proof can learn a value (log entries 6 and 7). -/

namespace Sys2Proof.Config

/-- The word of draw `i`: the data of a read of H, BITCOUNT, DIGEST or a STATUS field while STATUS.BUSY = 1
(20_memory.md R60), and the words left by a reset event (70_reset_and_hazards.md R240). -/
opaque freeWord : Nat → Word

/-- The byte of draw `i`: the bytes of BUF and BLK left by a reset event (70_reset_and_hazards.md R240). -/
opaque freeByte : Nat → Byte

/-- The hidden round counter of draw `i`, left by a reset event (70_reset_and_hazards.md R240). -/
opaque freeRound : Nat → BitVec 7

end Sys2Proof.Config
end

