-- ==== Sys2Proof/Machine/State.lean ====
section
/-! DEFINITION. The state: everything 10_state.md rules R20 to R25 give one engine, the platform's open parameters, the
other engines (60_exceptions.md R227) and the host's operations still to come (00_scope.md R12); the reset state of
10_state.md R40. All of it plain data. INVENTORY.md lists every field with its rule and reset value. -/

namespace Sys2Proof.Machine

/-- The algorithm selected, STATUS.ALG (00_scope.md R3, 10_state.md R33). -/
inductive Alg where
  | md5
  | sha256
deriving DecidableEq, Repr

/-- The driver state, STATUS.DRV (10_state.md R31); "the value 3 is never held". -/
inductive Drv where
  | init
  | reading
  | finished
deriving DecidableEq, Repr

/-- The padder state, STATUS.PADSTATE (10_state.md R32). ONE_PAD_PENDING_IN_SAME_BLOCK is never held, and "a model may
omit the value" (40_padder.md R113; log entry 9). -/
inductive PadState where
  | reading
  | onePadEmitted
  | done
deriving DecidableEq, Repr

/-- The codes of ERRCODE (60_exceptions.md R210); 7 to 15 are "never recorded". -/
inductive ErrCode where
  | none
  | invalidConfiguration
  | sourceReadError
  | illegalCommand
  | badLength
  | wrongState
  | busyViolation
deriving DecidableEq, Repr

/-- A command in flight, PEND (10_state.md R20, 44_driver.md R195): an accepted NEXT has a legal count, 0 to 64. -/
inductive InFlight where
  | next (n : Fin 65)
  | compress
deriving DecidableEq, Repr

/-- SHA-256 working registers `a..h` (10_state.md R25). -/
structure ShaRegs where
  a : Word
  b : Word
  c : Word
  d : Word
  e : Word
  f : Word
  g : Word
  h : Word
deriving DecidableEq, Repr

/-- MD5 working registers `A..D` (10_state.md R25). -/
structure Md5Regs where
  a : Word
  b : Word
  c : Word
  d : Word
deriving DecidableEq, Repr

/-- The hidden storage of a completion (10_state.md R24, R25): written by it before it is read, and read by nothing
else (log entry 5). -/
structure Scratch where
  /-- The padded block BLK. -/
  blk : Vector Byte 64
  /-- SHA-256 working registers. -/
  shaRegs : ShaRegs
  /-- The message schedule W[0..63]. -/
  sched : Vector Word 64
  /-- MD5 working registers. -/
  md5Regs : Md5Regs
  /-- The MD5 message words M[0..15]. -/
  md5Words : Vector Word 16
  /-- The round counter t, 0..64. -/
  round : BitVec 7
deriving DecidableEq, Repr

/-- One engine: the state of 10_state.md R20, its hidden storage, and its platform's open parameters. -/
structure Engine where
  /-- The chaining-state register file H[0..7]. -/
  h : Vector Word 8
  /-- The block buffer BUF[0..63]. -/
  buf : Vector Byte 64
  /-- BITCOUNT. -/
  bitCount : BitVec 64
  /-- STATUS.PADSTATE. -/
  padState : PadState
  /-- STATUS.DRV. -/
  drv : Drv
  /-- STATUS.ALG. -/
  alg : Alg
  /-- STATUS.BUSY. -/
  busy : Bool
  /-- STATUS.ERR. -/
  err : Bool
  /-- STATUS.DIGEST_VALID. -/
  digestValid : Bool
  /-- ERRCODE. -/
  errCode : ErrCode
  /-- DIGEST[0..31]. -/
  digest : Vector Byte 32
  /-- PEND, the command in flight. -/
  pend : Option InFlight
  /-- Hidden storage of a completion. -/
  scratch : Scratch
  /-- BASE / 256: the window starts at 256 * page (20_memory.md R51; log entry 8). -/
  page : Nat
  /-- How many host operations still land before the command in flight completes (44_driver.md R197; log entry 2). -/
  timer : Nat
  /-- LATENCY of the commands to be accepted, the next one first (00_scope.md R6; log entry 2). -/
  latencies : List Nat
deriving DecidableEq, Repr

/-- The width of a bus access (20_memory.md R55). -/
inductive AccessWidth where
  | w8
  | w16
  | w32
  | w64
deriving DecidableEq, Repr

/-- What the host or its platform does next (30_encoding.md R79, R80; 70_reset_and_hazards.md R240). Addresses are the
host's; a window page is an address divided by 256. -/
inductive HostOp where
  /-- A bus write of `data` (its low bits, for a narrower access). -/
  | write (addr : Nat) (width : AccessWidth) (data : Word)
  /-- A bus read. -/
  | read (addr : Nat) (width : AccessWidth)
  /-- WAIT on the engine at `page` (30_encoding.md R80). -/
  | wait (page : Nat)
  /-- FINISH on the engine at `page` (30_encoding.md R80). -/
  | finish (page : Nat)
  /-- The platform's reset signal to the engine at `page` (70_reset_and_hazards.md R240). -/
  | reset (page : Nat)
  /-- Time passes without an access. -/
  | idle
deriving DecidableEq, Repr

/-- What stands at an aligned offset of the register window (20_memory.md R52). -/
inductive WindowReg where
  | cmd
  | status
  | errcode
  | bitCountLo
  | bitCountHi
  | h (i : Fin 8)
  | buf (k : Fin 16)
  | digest (k : Fin 8)
  | reserved
deriving DecidableEq, Repr

/-- The machine: one engine that commands act on, the other engines of the host, and the host itself. -/
structure State where
  /-- The engine that `exec` acts on. -/
  self : Engine
  /-- The other engines (60_exceptions.md R227; log entry 13). -/
  peers : List Engine
  /-- The host's operations still to come, in program order (20_memory.md R64; log entry 1). -/
  queue : List HostOp
  /-- The words the host has read, newest first (30_encoding.md R79; log entry 12). -/
  reads : List Word
  /-- The index of the next free value (log entry 6). -/
  draws : Nat
deriving DecidableEq, Repr

/-- Why the machine stops. The engine itself never faults (60_exceptions.md R221). -/
inductive Fault where
  /-- Raised by a host operation whose address lies in no engine's window: that address is the platform's (20_memory.md
  R50, R63). Safe: the model stops where the platform goes on (log entry 11). -/
  | outsideWindow
deriving DecidableEq, Repr

/-- What the model gives no meaning. -/
inductive Refusal where
  /-- A command without a meaning yet, by its mnemonic. Safe. No command of this model is refused so. -/
  | notModelled (mnemonic : String)
  /-- Raised by a bus access of a width other than 32 bits or at an offset that is no multiple of 4: "A model refuses
  such an access (the host step has no meaning)" (20_memory.md R55). Safe (log entry 10). -/
  | accessNotPerformed
deriving DecidableEq, Repr

/-- Hidden storage all zero (log entry 5). -/
def Scratch.zero : Scratch where
  blk := Vector.replicate 64 0
  shaRegs := ⟨0, 0, 0, 0, 0, 0, 0, 0⟩
  sched := Vector.replicate 64 0
  md5Regs := ⟨0, 0, 0, 0⟩
  md5Words := Vector.replicate 16 0
  round := 0

/-- One engine after reset (10_state.md R40). H and BUF are "any value" there and zero here (log entry 4), as is the
hidden storage (log entry 5). -/
def Engine.reset : Engine where
  h := Vector.replicate 8 0
  buf := Vector.replicate 64 0
  bitCount := 0
  padState := .reading
  drv := .init
  alg := .md5
  busy := false
  err := false
  digestValid := false
  errCode := .none
  digest := Vector.replicate 32 0
  pend := .none
  scratch := Scratch.zero
  page := 0
  timer := 0
  latencies := []

/-- The machine right after reset (10_state.md R40, 70_reset_and_hazards.md R241: the engine "waits for host accesses"):
one engine, no host operation placed. -/
def State.reset : State where
  self := Engine.reset
  peers := []
  queue := []
  reads := []
  draws := 0

end Sys2Proof.Machine
end

