-- ==== Sys2Proof/Machine/Permuter.lean ====
section
/-! DEFINITION. The block word-order permuter, 41_permuter_rom.md rule R120. -/

namespace Sys2Proof.Machine

/-- `Words(blk, alg)`: sixteen words, little-endian for MD5, big-endian for SHA-256 (41_permuter_rom.md R120). -/
def blockWords (blk : Vector Byte 64) (alg : Alg) : Vector Word 16 :=
  Vector.ofFn fun k =>
    match alg with
    | .md5 => le32 blk[4 * k.val] blk[4 * k.val + 1] blk[4 * k.val + 2] blk[4 * k.val + 3]
    | .sha256 => be32 blk[4 * k.val] blk[4 * k.val + 1] blk[4 * k.val + 2] blk[4 * k.val + 3]

end Sys2Proof.Machine
end

