-- ==== Sys2Proof/Machine/Rom.lean ====
section
/-! DEFINITION. The round-constant ROM, 41_permuter_rom.md rules R122 to R132: constant data, "Immutable, process-wide,
read-only" (10_state.md R39), no part of State. The spec marks the values [from general knowledge, not in source]
(93_implementation_defined.md G2, G3, G7 to G11); they are the values its rules print. -/

namespace Sys2Proof.Machine.Rom

/-- SHA-256 round constants `K[0..63]`, 41_permuter_rom.md R123: the rows of its table, row `r` holding `K[4r]` to `K[4r+3]`. -/
def shaKRows : List (List Word) :=
  [[0x428a2f98, 0x71374491, 0xb5c0fbcf, 0xe9b5dba5],
   [0x3956c25b, 0x59f111f1, 0x923f82a4, 0xab1c5ed5],
   [0xd807aa98, 0x12835b01, 0x243185be, 0x550c7dc3],
   [0x72be5d74, 0x80deb1fe, 0x9bdc06a7, 0xc19bf174]] ++
  [[0xe49b69c1, 0xefbe4786, 0x0fc19dc6, 0x240ca1cc],
   [0x2de92c6f, 0x4a7484aa, 0x5cb0a9dc, 0x76f988da],
   [0x983e5152, 0xa831c66d, 0xb00327c8, 0xbf597fc7],
   [0xc6e00bf3, 0xd5a79147, 0x06ca6351, 0x14292967]] ++
  [[0x27b70a85, 0x2e1b2138, 0x4d2c6dfc, 0x53380d13],
   [0x650a7354, 0x766a0abb, 0x81c2c92e, 0x92722c85],
   [0xa2bfe8a1, 0xa81a664b, 0xc24b8b70, 0xc76c51a3],
   [0xd192e819, 0xd6990624, 0xf40e3585, 0x106aa070]] ++
  [[0x19a4c116, 0x1e376c08, 0x2748774c, 0x34b0bcb5],
   [0x391c0cb3, 0x4ed8aa4a, 0x5b9cca4f, 0x682e6ff3],
   [0x748f82ee, 0x78a5636f, 0x84c87814, 0x8cc70208],
   [0x90befffa, 0xa4506ceb, 0xbef9a3f7, 0xc67178f2]]

/-- `K[t]` (41_permuter_rom.md R123), for `t` in 0..63. -/
def shaK (t : Nat) : Word := (shaKRows.getD (t / 4) []).getD (t % 4) 0

/-- SHA-256 initial chaining state `IV256[0..7]`, 41_permuter_rom.md R124. -/
def iv256 : Vector Word 8 :=
  #v[0x6a09e667, 0xbb67ae85, 0x3c6ef372, 0xa54ff53a, 0x510e527f, 0x9b05688c, 0x1f83d9ab, 0x5be0cd19]

/-- MD5 additive constants `T[0..63]`, 41_permuter_rom.md R127: the rows of its table, row `r` holding `T[4r]` to `T[4r+3]`. -/
def md5TRows : List (List Word) :=
  [[0xd76aa478, 0xe8c7b756, 0x242070db, 0xc1bdceee],
   [0xf57c0faf, 0x4787c62a, 0xa8304613, 0xfd469501],
   [0x698098d8, 0x8b44f7af, 0xffff5bb1, 0x895cd7be],
   [0x6b901122, 0xfd987193, 0xa679438e, 0x49b40821]] ++
  [[0xf61e2562, 0xc040b340, 0x265e5a51, 0xe9b6c7aa],
   [0xd62f105d, 0x02441453, 0xd8a1e681, 0xe7d3fbc8],
   [0x21e1cde6, 0xc33707d6, 0xf4d50d87, 0x455a14ed],
   [0xa9e3e905, 0xfcefa3f8, 0x676f02d9, 0x8d2a4c8a]] ++
  [[0xfffa3942, 0x8771f681, 0x6d9d6122, 0xfde5380c],
   [0xa4beea44, 0x4bdecfa9, 0xf6bb4b60, 0xbebfbc70],
   [0x289b7ec6, 0xeaa127fa, 0xd4ef3085, 0x04881d05],
   [0xd9d4d039, 0xe6db99e5, 0x1fa27cf8, 0xc4ac5665]] ++
  [[0xf4292244, 0x432aff97, 0xab9423a7, 0xfc93a039],
   [0x655b59c3, 0x8f0ccc92, 0xffeff47d, 0x85845dd1],
   [0x6fa87e4f, 0xfe2ce6e0, 0xa3014314, 0x4e0811a1],
   [0xf7537e82, 0xbd3af235, 0x2ad7d2bb, 0xeb86d391]]

/-- `T[i]` (41_permuter_rom.md R127), for `i` in 0..63. -/
def md5T (i : Nat) : Word := (md5TRows.getD (i / 4) []).getD (i % 4) 0

/-- MD5 left-rotation amounts `S[0..63]`, 41_permuter_rom.md R128: a row of four per group of 16 rounds. -/
def md5SRows : List (List Nat) :=
  [[7, 12, 17, 22], [5, 9, 14, 20], [4, 11, 16, 23], [6, 10, 15, 21]]

/-- `S[i]` (41_permuter_rom.md R128), for `i` in 0..63. -/
def md5S (i : Nat) : Nat := (md5SRows.getD (i / 16) []).getD (i % 4) 0

/-- MD5 message-word index table `IDX[0..63]`, 41_permuter_rom.md R129, stored, one row per group of 16 rounds. -/
def md5IdxTable : List Nat :=
  [0, 1, 2, 3, 4, 5, 6, 7, 8, 9, 10, 11, 12, 13, 14, 15] ++
  [1, 6, 11, 0, 5, 10, 15, 4, 9, 14, 3, 8, 13, 2, 7, 12] ++
  [5, 8, 11, 14, 1, 4, 7, 10, 13, 0, 3, 6, 9, 12, 15, 2] ++
  [0, 7, 14, 5, 12, 3, 10, 1, 8, 15, 6, 13, 4, 11, 2, 9]

/-- `IDX[i]` (41_permuter_rom.md R129), for `i` in 0..63. -/
def md5Idx (i : Nat) : Nat := md5IdxTable.getD i 0

/-- MD5 register-role table, 41_permuter_rom.md R131: for `i mod 4`, the places of the roles a, b, c, d. -/
def md5Roles : List (List Nat) :=
  [[0, 1, 2, 3], [3, 0, 1, 2], [2, 3, 0, 1], [1, 2, 3, 0]]

/-- The place (0 to 3 for P0 to P3) that holds role `r` (0 to 3 for a to d) in round `i` (41_permuter_rom.md R131). -/
def md5Role (i r : Nat) : Nat := (md5Roles.getD (i % 4) []).getD r 0

/-- MD5 initial chaining state `IVMD5[0..3]`, 41_permuter_rom.md R132. -/
def ivMd5 : Vector Word 4 := #v[0x67452301, 0xefcdab89, 0x98badcfe, 0x10325476]

end Sys2Proof.Machine.Rom
end

