-- ==== Sys2Proof/Machine/WordOps.lean ====
section
/-! DEFINITION. The word operations of 00_scope.md rule R8: logical shift and the two rotations, on 32-bit words. -/

namespace Sys2Proof.Machine

/-- `SHR(x, n) = x >> n`, zero-filling (00_scope.md R8). -/
def shr (x : Word) (n : Nat) : Word := x >>> n

/-- `ROTR(x, n) = (x >> n) | ((x << (32 - n)) & 0xFFFFFFFF)` (00_scope.md R8); the mask is the word width. -/
def rotr (x : Word) (n : Nat) : Word := (x >>> n) ||| (x <<< (32 - n))

/-- `ROTL(x, n) = ((x << n) & 0xFFFFFFFF) | (x >> (32 - n))` (00_scope.md R8). -/
def rotl (x : Word) (n : Nat) : Word := (x <<< n) ||| (x >>> (32 - n))

end Sys2Proof.Machine
end

