-- ==== Sys2Proof/Machine/Compression.lean ====
section
/-! DEFINITION. The two compression functions, 42_compression.md rules R140 to R158, as pure functions of the chaining
state and the block, and the fold of a block into an engine's H (R140). -/

namespace Sys2Proof.Machine

/-! ### SHA-256 word functions -/

/-- `σ0(x) = ROTR(x, 7) ^ ROTR(x, 18) ^ SHR(x, 3)` (42_compression.md R142). -/
def smallSigma0 (x : Word) : Word := rotr x 7 ^^^ rotr x 18 ^^^ shr x 3

/-- `σ1(x) = ROTR(x, 17) ^ ROTR(x, 19) ^ SHR(x, 10)` (42_compression.md R142). -/
def smallSigma1 (x : Word) : Word := rotr x 17 ^^^ rotr x 19 ^^^ shr x 10

/-- `Σ0(x) = ROTR(x, 2) ^ ROTR(x, 13) ^ ROTR(x, 22)` (42_compression.md R143). -/
def bigSigma0 (x : Word) : Word := rotr x 2 ^^^ rotr x 13 ^^^ rotr x 22

/-- `Σ1(x) = ROTR(x, 6) ^ ROTR(x, 11) ^ ROTR(x, 25)` (42_compression.md R143). -/
def bigSigma1 (x : Word) : Word := rotr x 6 ^^^ rotr x 11 ^^^ rotr x 25

/-- `Ch(e, f, g) = (e & f) ^ (~e & g)` (42_compression.md R144). -/
def ch (e f g : Word) : Word := (e &&& f) ^^^ (~~~e &&& g)

/-- `Maj(a, b, c) = (a & b) ^ (a & c) ^ (b & c)` (42_compression.md R144). -/
def maj (a b c : Word) : Word := (a &&& b) ^^^ (a &&& c) ^^^ (b &&& c)

/-! ### SHA-256 compression -/

/-- The schedule word after the words `W` so far, at `t = W.length`:
`W[t] = σ1(W[t-2]) + W[t-7] + σ0(W[t-15]) + W[t-16]` (42_compression.md R145). -/
def scheduleNext (W : List Word) : Word :=
  smallSigma1 (W.getD (W.length - 2) 0) + W.getD (W.length - 7) 0 +
    smallSigma0 (W.getD (W.length - 15) 0) + W.getD (W.length - 16) 0

/-- `k` further schedule words after `W`. -/
def scheduleExtend : Nat → List Word → List Word
  | 0, W => W
  | k + 1, W => scheduleExtend k (W ++ [scheduleNext W])

/-- The message schedule `W[0..63]`: the 16 block words, then 48 words by the recurrence (42_compression.md R145, R146). -/
def shaSchedule (X : Vector Word 16) : List Word := scheduleExtend 48 X.toList

/-- One round with constant `k` and schedule word `w`; every right-hand side uses the values before the round
(42_compression.md R145). -/
def shaRound (k w : Word) (r : ShaRegs) : ShaRegs :=
  let t1 := r.h + bigSigma1 r.e + ch r.e r.f r.g + k + w
  let t2 := bigSigma0 r.a + maj r.a r.b r.c
  ⟨t1 + t2, r.a, r.b, r.c, r.d + t1, r.e, r.f, r.g⟩

/-- The working registers after the rounds 0 to `n-1` (42_compression.md R145). -/
def shaRounds (W : List Word) (r : ShaRegs) : Nat → ShaRegs
  | 0 => r
  | t + 1 => shaRound (Rom.shaK t) (W.getD t 0) (shaRounds W r t)

/-- `(a, ..., h) = (Hin[0], ..., Hin[7])` (42_compression.md R145). -/
def shaLoad (h : Vector Word 8) : ShaRegs := ⟨h[0], h[1], h[2], h[3], h[4], h[5], h[6], h[7]⟩

/-- The final addition, "slot for slot" (42_compression.md R147). -/
def shaAddBack (h : Vector Word 8) (r : ShaRegs) : Vector Word 8 :=
  #v[h[0] + r.a, h[1] + r.b, h[2] + r.c, h[3] + r.d, h[4] + r.e, h[5] + r.f, h[6] + r.g, h[7] + r.h]

/-- The schedule of a block (42_compression.md R145). -/
def shaBlockSchedule (blk : Vector Byte 64) : List Word := shaSchedule (blockWords blk .sha256)

/-- The working registers after round 63 (42_compression.md R145: 64 rounds). -/
def shaFinalRegs (hin : Vector Word 8) (blk : Vector Byte 64) : ShaRegs :=
  shaRounds (shaBlockSchedule blk) (shaLoad hin) 64

/-- `SHA256Compress(Hin, blk)` (42_compression.md R145). -/
def sha256Compress (hin : Vector Word 8) (blk : Vector Byte 64) : Vector Word 8 :=
  shaAddBack hin (shaFinalRegs hin blk)

/-! ### MD5 round functions -/

/-- `F(x, y, z) = (x & y) | (~x & z)` (42_compression.md R151). -/
def md5F (x y z : Word) : Word := (x &&& y) ||| (~~~x &&& z)

/-- `G(x, y, z) = (x & z) | (y & ~z)` (42_compression.md R151). -/
def md5G (x y z : Word) : Word := (x &&& z) ||| (y &&& ~~~z)

/-- `H(x, y, z) = x ^ y ^ z` (42_compression.md R151). -/
def md5H (x y z : Word) : Word := x ^^^ y ^^^ z

/-- `I(x, y, z) = y ^ (x | ~z)` (42_compression.md R151). -/
def md5I (x y z : Word) : Word := y ^^^ (x ||| ~~~z)

/-- Round `i` uses `F` for `i` in 0..15, `G` for 16..31, `H` for 32..47 and `I` for 48..63 (41_permuter_rom.md R130). -/
def md5Fn (i : Nat) (x y z : Word) : Word :=
  if i < 16 then md5F x y z
  else if i < 32 then md5G x y z
  else if i < 48 then md5H x y z
  else md5I x y z

/-! ### MD5 compression -/

/-- `B + ROTL(A + fv + M[IDX[i]] + T[i], S[i])` with `fv = FN(i)(B, C, D)`: what round `i` gives its active register
(42_compression.md R155). -/
def md5Active (M : Vector Word 16) (i : Nat) (a b c d : Word) : Word :=
  b + rotl (a + md5Fn i b c d + M.getD (Rom.md5Idx i) 0 + Rom.md5T i) (Rom.md5S i)

/-- Round `i`, in the rotating form `(A, B, C, D) = (D, newB, B, C)` (42_compression.md R155). -/
def md5Round (M : Vector Word 16) (i : Nat) (r : Md5Regs) : Md5Regs :=
  ⟨r.d, md5Active M i r.a r.b r.c r.d, r.b, r.c⟩

/-- The working registers after the rounds 0 to `n-1` (42_compression.md R155). -/
def md5Rounds (M : Vector Word 16) (r : Md5Regs) : Nat → Md5Regs
  | 0 => r
  | i + 1 => md5Round M i (md5Rounds M r i)

/-- `(A, B, C, D) = (Hin[0], Hin[1], Hin[2], Hin[3])` (42_compression.md R155). -/
def md5Load (h : Vector Word 4) : Md5Regs := ⟨h[0], h[1], h[2], h[3]⟩

/-- `Hout[k] = Hin[k] + (final working register k)` (42_compression.md R156). -/
def md5AddBack (h : Vector Word 4) (r : Md5Regs) : Vector Word 4 :=
  #v[h[0] + r.a, h[1] + r.b, h[2] + r.c, h[3] + r.d]

/-- The working registers after round 63 (42_compression.md R155: 64 rounds). -/
def md5FinalRegs (hin : Vector Word 4) (blk : Vector Byte 64) : Md5Regs :=
  md5Rounds (blockWords blk .md5) (md5Load hin) 64

/-- `MD5Compress(Hin, blk)` (42_compression.md R155). -/
def md5Compress (hin : Vector Word 4) (blk : Vector Byte 64) : Vector Word 4 :=
  md5AddBack hin (md5FinalRegs hin blk)

/-! ### The role-table form of the MD5 rounds, which the spec says gives exactly the same result -/

/-- Round `i` with the registers kept in their places P0..P3: the place in role a is written (41_permuter_rom.md R131). -/
def md5PlaceRound (M : Vector Word 16) (i : Nat) (p : Vector Word 4) : Vector Word 4 :=
  p.setIfInBounds (Rom.md5Role i 0)
    (md5Active M i (p.getD (Rom.md5Role i 0) 0) (p.getD (Rom.md5Role i 1) 0)
      (p.getD (Rom.md5Role i 2) 0) (p.getD (Rom.md5Role i 3) 0))

/-- The places after the rounds 0 to `n-1` (41_permuter_rom.md R131). -/
def md5PlaceRounds (M : Vector Word 16) (p : Vector Word 4) : Nat → Vector Word 4
  | 0 => p
  | i + 1 => md5PlaceRound M i (md5PlaceRounds M p i)

/-! ### Folding a block into the register file -/

/-- The four words MD5 works on: H[0..3] (10_state.md R22). -/
def md5Part (h : Vector Word 8) : Vector Word 4 := #v[h[0], h[1], h[2], h[3]]

/-- `Compress(alg, blk)` on the register file: SHA-256 replaces all eight words, MD5 the first four, "H[4..7] unchanged"
(42_compression.md R140). -/
def compressWords (alg : Alg) (h : Vector Word 8) (blk : Vector Byte 64) : Vector Word 8 :=
  match alg with
  | .sha256 => sha256Compress h blk
  | .md5 =>
    let r := md5Compress (md5Part h) blk
    #v[r[0], r[1], r[2], r[3], h[4], h[5], h[6], h[7]]

/-- What a compression leaves in the hidden storage (10_state.md R24, R25): the block, the working registers after round
63, the schedule or message words, and the round counter at 64 (log entry 5). -/
def compressScratch (alg : Alg) (h : Vector Word 8) (blk : Vector Byte 64) (x : Scratch) : Scratch :=
  match alg with
  | .sha256 =>
    { x with
      blk := blk
      shaRegs := shaFinalRegs h blk
      sched := Vector.ofFn fun t => (shaBlockSchedule blk).getD t.val 0
      round := 64 }
  | .md5 =>
    { x with
      blk := blk
      md5Regs := md5FinalRegs (md5Part h) blk
      md5Words := blockWords blk .md5
      round := 64 }

/-- `Compress(STATUS.ALG, blk)`: "`Compress` writes only `H`" (42_compression.md R140, R141), beside the hidden storage. -/
def Engine.compress (e : Engine) (blk : Vector Byte 64) : Engine :=
  { e with h := compressWords e.alg e.h blk, scratch := compressScratch e.alg e.h blk e.scratch }

end Sys2Proof.Machine
end

