-- ==== Sys2Proof/Machine/Flags.lean ====
section
/-! DEFINITION. The status flags and the error code as the host reads them: the layout of STATUS (10_state.md rule R27),
the encodings of its fields (R31 to R33), ERRCODE (R34, 60_exceptions.md R210), and STATUS while BUSY (20_memory.md R60). -/

namespace Sys2Proof.Machine

/-- STATUS.DRV's encoding: 0 = INIT, 1 = READING, 2 = FINISHED (10_state.md R31). -/
def drvCode : Drv → BitVec 2
  | .init => 0
  | .reading => 1
  | .finished => 2

/-- STATUS.PADSTATE's encoding: 0 = READING, 2 = ONE_PAD_ALREADY_EMITTED, 3 = DONE (10_state.md R32). -/
def padCode : PadState → BitVec 2
  | .reading => 0
  | .onePadEmitted => 2
  | .done => 3

/-- STATUS.ALG's encoding: 0 = MD5, 1 = SHA-256 (10_state.md R33, 00_scope.md R3). -/
def algCode : Alg → BitVec 1
  | .md5 => 0
  | .sha256 => 1

/-- ERRCODE's encoding (60_exceptions.md R210). -/
def errCodeBits : ErrCode → BitVec 4
  | .none => 0
  | .invalidConfiguration => 1
  | .sourceReadError => 2
  | .illegalCommand => 3
  | .badLength => 4
  | .wrongState => 5
  | .busyViolation => 6

/-- STATUS bits 0 and 1: BUSY and ERR, exact at every read (10_state.md R27, 20_memory.md R60). -/
def Engine.busyErrBits (e : Engine) : Word :=
  (BitVec.ofBool e.busy).setWidth 32 ||| ((BitVec.ofBool e.err).setWidth 32 <<< 1)

/-- The STATUS word (10_state.md R27); the reserved bits are 0. -/
def Engine.statusWord (e : Engine) : Word :=
  e.busyErrBits ||| ((BitVec.ofBool e.digestValid).setWidth 32 <<< 2) ||| ((drvCode e.drv).setWidth 32 <<< 4) |||
    ((padCode e.padState).setWidth 32 <<< 8) ||| ((algCode e.alg).setWidth 32 <<< 12)

/-- The STATUS bits that read as any value while BUSY: 2, 5:4, 9:8 and 12 (20_memory.md R60). -/
def statusFreeMask : Word := 0x00001334#32

/-- STATUS read while BUSY: bits 0 and 1 exact, the bits of `statusFreeMask` those of the draw, reserved bits 0
(20_memory.md R60). -/
def Engine.busyStatusWord (e : Engine) (free : Word) : Word := e.busyErrBits ||| (free &&& statusFreeMask)

/-- The ERRCODE word: the code in bits 3:0, bits 31:4 zero (10_state.md R34). -/
def Engine.errCodeWord (e : Engine) : Word := (errCodeBits e.errCode).setWidth 32

end Sys2Proof.Machine
end

