-- ==== Sys2Proof/Machine/Operands.lean ====
section
/-! DEFINITION. Operand forms: the algorithm selector of INIT, the count of NEXT and the message bytes it names
(30_encoding.md rule R73), and the register a window offset names (20_memory.md R51, R52). -/

namespace Sys2Proof.Machine

/-- The algorithm an INIT operand selects; "`alg` is legal when it is 0 (MD5) or 1 (SHA-256)" (30_encoding.md R73). -/
def algOperand : Nat → Option Alg
  | 0 => some .md5
  | 1 => some .sha256
  | _ => none

/-- The count a NEXT operand gives; "`n` is legal when `n <= 64`" (30_encoding.md R73). -/
def countOperand (n : Nat) : Option (Fin 65) := if h : n < 65 then some ⟨n, h⟩ else none

/-- `BUF[0..n-1]` (40_padder.md R110). -/
def Engine.bufPrefix (e : Engine) (n : Nat) : List Byte := e.buf.toList.take n

/-- The window page of a host address: BASE is a multiple of 256 (20_memory.md R51). -/
def pageOf (addr : Nat) : Nat := addr / 256

/-- The window offset of a host address; "the engine decodes only the 8-bit offset" (20_memory.md R51). -/
def offsetOf (addr : Nat) : Nat := addr % 256

/-- BASE + offset (20_memory.md R51). -/
def windowAddr (page off : Nat) : Nat := 256 * page + off

/-- The window map of 20_memory.md R52, for an aligned offset. -/
def windowReg (off : Nat) : WindowReg :=
  if off = 0x00 then .cmd
  else if off = 0x04 then .status
  else if off = 0x08 then .errcode
  else if off = 0x10 then .bitCountLo
  else if off = 0x14 then .bitCountHi
  else if h : 0x20 ≤ off ∧ off < 0x40 then .h ⟨(off - 0x20) / 4, by omega⟩
  else if h : 0x40 ≤ off ∧ off < 0x80 then .buf ⟨(off - 0x40) / 4, by omega⟩
  else if h : 0x80 ≤ off ∧ off < 0xA0 then .digest ⟨(off - 0x80) / 4, by omega⟩
  else .reserved

/-- A bus access is performed only when it is 32 bits wide at an offset that is a multiple of 4 (20_memory.md R55). -/
def accessPerformed (addr : Nat) (width : AccessWidth) : Bool := width == .w32 && offsetOf addr % 4 == 0

end Sys2Proof.Machine
end

