-- ==== Sys2Proof/Machine/Ops.lean ====
section
/-! DEFINITION. The named operations: recording and clearing an error, accepting a command and the gates before it, the
reads and writes of the register window, reset, the passing of time, and which engine an operation is about. -/

namespace Sys2Proof.Machine

/-! ### Errors: the engine's one form of exception (60_exceptions.md R213, R221) -/

/-- `raise Error(code)`: "sets `STATUS.ERR <- 1` and `ERRCODE <- e`" (60_exceptions.md R213). No state is saved, no mode
changes, control goes nowhere (R221). -/
def Engine.raiseError (code : ErrCode) (e : Engine) : Engine := { e with err := true, errCode := code }

/-- The way back from an error: `STATUS.ERR <- 0 ; ERRCODE <- 0` (60_exceptions.md R218, R222). -/
def Engine.clearError (e : Engine) : Engine := { e with err := false, errCode := .none }

/-- `RecordBusyViolation()`: the first error of a computation is kept (60_exceptions.md R216). -/
def Engine.recordBusyViolation (e : Engine) : Engine := if e.err then e else e.raiseError .busyViolation

/-! ### Taking a command (44_driver.md R180) -/

/-- The first check of R180 alone, which INIT passes through: a command word written while BUSY is dropped. -/
def Engine.unlessBusy (f : Engine → Engine) (e : Engine) : Engine :=
  if e.busy then e.recordBusyViolation else f e

/-- The first two checks of R180: dropped while BUSY, ignored while ERR = 1 (60_exceptions.md R214). -/
def Engine.unlessBusyOrError (f : Engine → Engine) (e : Engine) : Engine :=
  e.unlessBusy fun e => if e.err then e else f e

/-- Acceptance of NEXT or COMPRESS: `STATUS.BUSY <- 1`, PEND holds the command (44_driver.md R195). It will complete
after as many further host operations as its LATENCY says (R197; log entry 2). -/
def Engine.accept (cmd : InFlight) (e : Engine) : Engine :=
  { e with busy := true, pend := some cmd, timer := e.latencies.headD 0, latencies := e.latencies.tail }

/-- The driver check of NEXT, COMPRESS and ABORT: WRONG_STATE unless READING (60_exceptions.md R211). -/
def Engine.ifReading (f : Engine → Engine) (e : Engine) : Engine :=
  if e.drv = .reading then f e else e.raiseError .wrongState

/-- A command acts on the engine alone and never stops the machine. -/
def State.command (f : Engine → Engine) (s : State) : Host.Outcome State Fault Refusal :=
  .next { s with self := f s.self }

/-- A `CMD` word that decodes to ILLEGAL: ILLEGAL_COMMAND, behind the same gates (44_driver.md R180, 30_encoding.md R76). -/
def execIllegal (s : State) : Host.Outcome State Fault Refusal :=
  s.command (Engine.unlessBusyOrError (Engine.raiseError .illegalCommand))

/-! ### Completion (44_driver.md R196) -/

/-- `STATUS.BUSY <- 0 ; PEND <- none` (44_driver.md R196). -/
def Engine.retire (e : Engine) : Engine := { e with busy := false, pend := none }

/-! ### The register window (20_memory.md R52 to R60) -/

/-- A 32-bit read of a register (20_memory.md R52, R53, R56); while BUSY, `free` stands for what "any value" covers
(R60). -/
def Engine.readReg (e : Engine) (free : Word) : WindowReg → Word
  | .cmd => 0
  | .status => if e.busy then e.busyStatusWord free else e.statusWord
  | .errcode => e.errCodeWord
  | .bitCountLo => if e.busy then free else e.bitCount.extractLsb' 0 32
  | .bitCountHi => if e.busy then free else e.bitCount.extractLsb' 32 32
  | .h i => if e.busy then free else e.h[i]
  | .buf k => le32 e.buf[4 * k.val] e.buf[4 * k.val + 1] e.buf[4 * k.val + 2] e.buf[4 * k.val + 3]
  | .digest k =>
    if e.busy then free
    else le32 e.digest[4 * k.val] e.digest[4 * k.val + 1] e.digest[4 * k.val + 2] e.digest[4 * k.val + 3]
  | .reserved => 0

/-- `H[i] <- v`, or dropped while BUSY (20_memory.md R58, R59). -/
def Engine.writeH (i : Fin 8) (v : Word) (e : Engine) : Engine :=
  e.unlessBusy fun e => { e with h := e.h.set i.val v }

/-- `BUF[4k+j] <- v[8j+7:8j]` for `j = 0..3`, or dropped while BUSY (20_memory.md R53, R58, R59). -/
def Engine.writeBuf (k : Fin 16) (v : Word) (e : Engine) : Engine :=
  e.unlessBusy fun e =>
    { e with buf := Vector.ofFn fun j => if j.val / 4 = k.val then byteOf v (j.val % 4) else e.buf[j] }

/-- A 32-bit write of a register other than CMD: H and BUF take it; "a write to a read-only register ... or to a reserved
offset is ignored" whatever BUSY is (20_memory.md R57). -/
def Engine.writeReg (e : Engine) (v : Word) : WindowReg → Engine
  | .h i => e.writeH i v
  | .buf k => e.writeBuf k v
  | .cmd => e
  | .status => e
  | .errcode => e
  | .bitCountLo => e
  | .bitCountHi => e
  | .digest _ => e
  | .reserved => e

/-! ### Reset (70_reset_and_hazards.md R240) -/

/-- The free values one reset event uses: 100 words and 128 bytes at most, drawn from `d` on (log entry 7). -/
def resetDraws : Nat := 128

/-- The hidden storage after a reset event: any value (70_reset_and_hazards.md R240). -/
def resetScratch (d : Nat) : Scratch where
  blk := Vector.ofFn fun j => Config.freeByte (d + 64 + j.val)
  shaRegs :=
    ⟨Config.freeWord (d + 8), Config.freeWord (d + 9), Config.freeWord (d + 10), Config.freeWord (d + 11),
      Config.freeWord (d + 12), Config.freeWord (d + 13), Config.freeWord (d + 14), Config.freeWord (d + 15)⟩
  sched := Vector.ofFn fun t => Config.freeWord (d + 16 + t.val)
  md5Regs :=
    ⟨Config.freeWord (d + 80), Config.freeWord (d + 81), Config.freeWord (d + 82), Config.freeWord (d + 83)⟩
  md5Words := Vector.ofFn fun k => Config.freeWord (d + 84 + k.val)
  round := Config.freeRound d

/-- `Reset()` on a running engine: an in-flight command is discarded, the control state, BITCOUNT and DIGEST take their
reset values, H, BUF and the hidden storage any value, drawn from `d` on (70_reset_and_hazards.md R240). The platform's
parameters stay. -/
def Engine.resetEvent (d : Nat) (e : Engine) : Engine :=
  { e with
    pend := none
    busy := false
    err := false
    errCode := .none
    digestValid := false
    drv := .init
    padState := .reading
    alg := .md5
    bitCount := 0
    digest := Vector.replicate 32 0
    h := Vector.ofFn fun i => Config.freeWord (d + i.val)
    buf := Vector.ofFn fun j => Config.freeByte (d + j.val)
    scratch := resetScratch d
    timer := 0 }

/-! ### Time (44_driver.md R197; log entry 2) -/

/-- One host operation passes: a command in flight is one nearer to its completion. -/
def Engine.tick (e : Engine) : Engine := if e.pend.isSome then { e with timer := e.timer - 1 } else e

/-- Completion is due: a command is in flight and its LATENCY has passed. -/
def Engine.due (e : Engine) : Bool := e.pend.isSome && e.timer == 0

/-- Puts a completion that is due off by one host operation, as the open LATENCY allows (44_driver.md R197). -/
def Engine.holdOff (e : Engine) : Engine := if e.due then { e with timer := 1 } else e

/-- Time passes for every engine. -/
def State.tick (s : State) : State := { s with self := s.self.tick, peers := s.peers.map Engine.tick }

/-- No engine's completion is due at once. -/
def State.holdOff (s : State) : State := { s with self := s.self.holdOff, peers := s.peers.map Engine.holdOff }

/-! ### Several engines (60_exceptions.md R227) -/

/-- All engines of the host: number 0 is `self`, number j+1 is `peers[j]`. -/
def State.engines (s : State) : List Engine := s.self :: s.peers

/-- Engine number `k` changes places with `self` (nothing changes where there is none). -/
def State.swapIn (k : Nat) (s : State) : State :=
  match k with
  | 0 => s
  | j + 1 =>
    match s.peers[j]? with
    | none => s
    | some p => { s with self := p, peers := s.peers.set j s.self }

/-- An operation on `self`, done on engine number `k` instead. -/
def State.withEngine (k : Nat) (f : State → Host.Outcome State Fault Refusal) (s : State) :
    Host.Outcome State Fault Refusal :=
  match f (s.swapIn k) with
  | .next t => .next (t.swapIn k)
  | .fault r => .fault r
  | .refused r => .refused r

/-- The number of the engine whose window holds the address (20_memory.md R51; log entry 13). -/
def State.findWindow (s : State) (addr : Nat) : Option Nat :=
  s.engines.findIdx? fun e => e.page == pageOf addr

/-- An operation on the engine whose window holds the address; any other address is the platform's (20_memory.md R63). -/
def State.atWindow (addr : Nat) (f : State → Host.Outcome State Fault Refusal) (s : State) :
    Host.Outcome State Fault Refusal :=
  match s.findWindow addr with
  | some k => s.withEngine k f
  | none => .fault .outsideWindow

/-- The number of the first engine whose completion is due. -/
def State.dueEngine (s : State) : Option Nat := s.engines.findIdx? Engine.due

/-! ### The host's reads (20_memory.md R56, R60) -/

/-- A read of `self`'s register: the host gets the word, no engine changes, and a free value is used up while BUSY. -/
def State.readSelf (r : WindowReg) (s : State) : State :=
  { s with
    reads := s.self.readReg (Config.freeWord s.draws) r :: s.reads
    draws := if s.self.busy then s.draws + 1 else s.draws }

/-- The reset signal to `self`, atomic with respect to accesses (70_reset_and_hazards.md R240). -/
def State.resetSelf (s : State) : State :=
  { s with self := s.self.resetEvent s.draws, draws := s.draws + resetDraws }

end Sys2Proof.Machine
end

