-- ==== Sys2Proof/Machine/Compress.lean ====
section
/-! DEFINITION. COMPRESS, the bare compression function on the host's block (42_compression.md rule R160). -/

namespace Sys2Proof.Machine

/-- The part of COMPRESS "at completion": `BLK <- BUF[0..63] ; Compress(STATUS.ALG, BLK)` (42_compression.md R160). -/
def Engine.compressBody (e : Engine) : Engine := e.compress e.buf

/-- COMPRESS (42_compression.md R160). -/
def execCompress (s : State) : Host.Outcome State Fault Refusal :=
  s.command (Engine.unlessBusyOrError (Engine.ifReading (Engine.accept .compress)))

end Sys2Proof.Machine
end

