-- ==== Sys2Proof/Machine/Digest.lean ====
section
/-! DEFINITION. The digest serializer, 43_digest.md rules R170 and R171. -/

namespace Sys2Proof.Machine

/-- `Serialize(H, alg)` as a list of bytes (43_digest.md R170). -/
def serializeBytes (h : Vector Word 8) : Alg → List Byte
  | .sha256 =>
    be32bytes h[0] ++ be32bytes h[1] ++ be32bytes h[2] ++ be32bytes h[3] ++
      be32bytes h[4] ++ be32bytes h[5] ++ be32bytes h[6] ++ be32bytes h[7]
  | .md5 => le32bytes h[0] ++ le32bytes h[1] ++ le32bytes h[2] ++ le32bytes h[3] ++ zeros 16

/-- `Serialize(H, alg)`, 32 bytes (43_digest.md R170). -/
def serialize (h : Vector Word 8) (alg : Alg) : Vector Byte 32 := bytesOf 32 (serializeBytes h alg)

end Sys2Proof.Machine
end

