-- ==== Sys2Proof/Machine/Padder.lean ====
section
/-! DEFINITION. The Merkle-Damgård padding functions, 40_padder.md rules R102 to R105, and the padded stream of a whole
message (R114). -/

namespace Sys2Proof.Machine

/-- The padding marker, the byte 0x80 (40_padder.md R102). -/
def padMarker : Byte := 0x80

/-- `len8(bc, alg)`: the bit count in 8 bytes, big-endian for SHA-256, little-endian for MD5 (40_padder.md R103). -/
def len8 (bc : BitVec 64) : Alg → List Byte
  | .sha256 => be64bytes bc
  | .md5 => le64bytes bc

/-- `PadBlock(d, n, bc, alg)` with `n` the number of bytes of `d`: the block and the next padder state (40_padder.md
R104). -/
def padBlock (d : List Byte) (bc : BitVec 64) (alg : Alg) : List Byte × PadState :=
  if d.length = 64 then (d, .reading)
  else if d.length < 56 then (d ++ [padMarker] ++ zeros (55 - d.length) ++ len8 bc alg, .done)
  else (d ++ [padMarker] ++ zeros (63 - d.length), .onePadEmitted)

/-- `PadOnlyBlock(bc, alg) = zeros(56) ++ len8(bc, alg)` (40_padder.md R105). -/
def padOnlyBlock (bc : BitVec 64) (alg : Alg) : List Byte := zeros 56 ++ len8 bc alg

/-- The number of zero bytes between the marker and the length of a message of `len` bytes: "the least number making the
length 56 modulo 64" (40_padder.md R114). -/
def padZeroCount (len : Nat) : Nat := (119 - len % 64) % 64

/-- The padded stream of a message: "the message, `0x80`, then `k` zero bytes ..., then the length" (40_padder.md R114). -/
def paddedStream (msg : List Byte) (alg : Alg) : List Byte :=
  msg ++ [padMarker] ++ zeros (padZeroCount msg.length) ++ len8 (BitVec.ofNat 64 (8 * msg.length)) alg

end Sys2Proof.Machine
end

