-- ==== Sys2Proof/Machine/Next.lean ====
section
/-! DEFINITION. NEXT, one driver iteration (40_padder.md rules R109 to R112, 43_digest.md rule R172): its acceptance, and
the three branches its completion takes by PADSTATE. -/

namespace Sys2Proof.Machine

/-- `NextData(n)`, NEXT in READING (40_padder.md R110): the count grows first, the block is formed with the new count and
compressed. -/
def Engine.nextData (n : Nat) (e : Engine) : Engine :=
  let d := e.bufPrefix n
  let bc := e.bitCount + BitVec.ofNat 64 (8 * n)
  let p := padBlock d bc e.alg
  { e.compress (bytesOf 64 p.1) with bitCount := bc, padState := p.2 }

/-- `NextPadOnly()`, NEXT in ONE_PAD_ALREADY_EMITTED (40_padder.md R112). -/
def Engine.nextPadOnly (e : Engine) : Engine :=
  { e.compress (bytesOf 64 (padOnlyBlock e.bitCount e.alg)) with padState := .done }

/-- `DigestCommit()`, NEXT in DONE (43_digest.md R172). -/
def Engine.digestCommit (e : Engine) : Engine :=
  { e with digest := serialize e.h e.alg, digestValid := true, drv := .finished }

/-- The part of NEXT "at completion" (40_padder.md R109). -/
def Engine.nextBody (n : Nat) (e : Engine) : Engine :=
  match e.padState with
  | .reading => e.nextData n
  | .onePadEmitted => e.nextPadOnly
  | .done => e.digestCommit

/-- `Next(n)` at acceptance: BAD_LENGTH first, in every driver state, then WRONG_STATE (40_padder.md R109, 60_exceptions.md
R211). -/
def Engine.issueNext (n : Nat) (e : Engine) : Engine :=
  match countOperand n with
  | some k => e.ifReading (Engine.accept (.next k))
  | none => e.raiseError .badLength

/-- NEXT (40_padder.md R109). -/
def execNext (n : Nat) (s : State) : Host.Outcome State Fault Refusal :=
  s.command (Engine.unlessBusyOrError (Engine.issueNext n))

end Sys2Proof.Machine
end

