-- ==== Sys2Proof/Machine/Completion.lean ====
section
/-! DEFINITION. The engine's own step: the completion of the command in flight, in one atomic transition (44_driver.md
rule R196). -/

namespace Sys2Proof.Machine

/-- The effects of the command in flight, then `STATUS.BUSY <- 0 ; PEND <- none` (44_driver.md R196). "Completion never
reads or writes `STATUS.ERR` or `ERRCODE`." -/
def Engine.complete (e : Engine) : Engine :=
  match e.pend with
  | none => e
  | some (.next n) => (e.nextBody n.val).retire
  | some .compress => e.compressBody.retire

/-- The completion of `self`'s command. -/
def State.completeSelf (s : State) : Host.Outcome State Fault Refusal := s.command Engine.complete

end Sys2Proof.Machine
end

