-- ==== Sys2Proof/Machine/Driver.lean ====
section
/-! DEFINITION. The engine driver's own commands: INIT, ABORT and NOP (44_driver.md rules R181, R182, R188, R190), which
take their whole effect inside the CMD write. -/

namespace Sys2Proof.Machine

/-- The initial chaining state: IV256, or IVMD5 and `H[4..7] <- 0` (44_driver.md R181). -/
def initialWords : Alg → Vector Word 8
  | .sha256 => Rom.iv256
  | .md5 => #v[Rom.ivMd5[0], Rom.ivMd5[1], Rom.ivMd5[2], Rom.ivMd5[3], 0, 0, 0, 0]

/-- `Init(alg)` for a legal algorithm (44_driver.md R181). -/
def Engine.initLegal (alg : Alg) (e : Engine) : Engine :=
  Engine.clearError
    { e with
      alg := alg
      h := initialWords alg
      bitCount := 0
      padState := .reading
      drv := .reading
      digestValid := false
      digest := Vector.replicate 32 0 }

/-- `InitFail()` (44_driver.md R182). -/
def Engine.initFail (e : Engine) : Engine :=
  Engine.raiseError .invalidConfiguration { e with drv := .init, digestValid := false }

/-- `Abort()` in READING (44_driver.md R188). -/
def Engine.abortReading (e : Engine) : Engine :=
  Engine.raiseError .sourceReadError { e with drv := .init, digestValid := false }

/-- NOP: "no operation" (44_driver.md R190). Its gates come first, as for every command (R180). -/
def execNop (s : State) : Host.Outcome State Fault Refusal :=
  s.command (Engine.unlessBusyOrError id)

/-- INIT: the only command taken while ERR = 1 (44_driver.md R180, R181, R182). -/
def execInit (alg : Nat) (s : State) : Host.Outcome State Fault Refusal :=
  s.command (Engine.unlessBusy fun e =>
    match algOperand alg with
    | some a => e.initLegal a
    | none => e.initFail)

/-- ABORT: the host reports that its byte source failed (44_driver.md R188). -/
def execAbort (s : State) : Host.Outcome State Fault Refusal :=
  s.command (Engine.unlessBusyOrError (Engine.ifReading Engine.abortReading))

end Sys2Proof.Machine
end

