-- ==== Sys2Proof/Machine/Dispatch.lean ====
section
/-! DEFINITION. One arm per command (44_driver.md rule R180's dispatch). -/

namespace Sys2Proof.Machine

def exec (i : Instr) (s : State) : Host.Outcome State Fault Refusal :=
  match i with
  | .nop => Sys2Proof.Machine.execNop s
  | .init alg => Sys2Proof.Machine.execInit alg s
  | .next n => Sys2Proof.Machine.execNext n s
  | .compress => Sys2Proof.Machine.execCompress s
  | .abort => Sys2Proof.Machine.execAbort s

end Sys2Proof.Machine
end

