-- ==== Sys2Proof/Machine/Bus.lean ====
section
/-! DEFINITION. What one host operation does: bus reads and writes of the register window (20_memory.md rules R52 to R60),
a write to CMD taken as a command (44_driver.md R180), the polling pseudo-instructions WAIT and FINISH (30_encoding.md R80), and
the reset signal (70_reset_and_hazards.md R240). -/

namespace Sys2Proof.Machine

/-- `WriteCMD(c)` (44_driver.md R180): the word is decoded and its command run; each command begins with the BUSY and ERR
checks of R180, and so does an ILLEGAL word. -/
def State.writeCmd (c : Word) (s : State) : Host.Outcome State Fault Refusal :=
  match decode c with
  | .ok i => exec i s
  | .error _ => execIllegal s

/-- A 32-bit write of `self`'s register (20_memory.md R57 to R59, R62). -/
def State.writeSelf (r : WindowReg) (v : Word) (s : State) : Host.Outcome State Fault Refusal :=
  match r with
  | .cmd => s.writeCmd v
  | r => .next { s with self := s.self.writeReg v r }

/-- A bus write (20_memory.md R55). -/
def State.busWrite (addr : Nat) (width : AccessWidth) (v : Word) (s : State) : Host.Outcome State Fault Refusal :=
  s.atWindow addr fun s =>
    if accessPerformed addr width then s.writeSelf (windowReg (offsetOf addr)) v else .refused .accessNotPerformed

/-- A bus read (20_memory.md R55, R56). -/
def State.busRead (addr : Nat) (width : AccessWidth) (s : State) : Host.Outcome State Fault Refusal :=
  s.atWindow addr fun s =>
    if accessPerformed addr width then .next (s.readSelf (windowReg (offsetOf addr))) else .refused .accessNotPerformed

/-- `RD STATUS -> s` on the engine at `page`, and then `more s` (30_encoding.md R79). -/
def State.pollStatus (page : Nat) (more : Word → State → State) (s : State) : Host.Outcome State Fault Refusal :=
  match s.busRead (windowAddr page 0x04) .w32 with
  | .next t => .next (more (t.reads.headD 0) t)
  | .fault r => .fault r
  | .refused r => .refused r

/-- The host puts operations in front of what it has still to do. -/
def State.doFirst (ops : List HostOp) (s : State) : State := { s with queue := ops ++ s.queue }

/-- The bus write of a command word to the engine at `page` (30_encoding.md R79). -/
def cmdWrite (page : Nat) (c : Word) : HostOp := .write (windowAddr page 0x00) .w32 c

/-- One pass of WAIT's loop: "`RD STATUS -> s; repeat while s[0] == 1`" (30_encoding.md R80; log entry 14). -/
def State.waitOnce (page : Nat) (s : State) : Host.Outcome State Fault Refusal :=
  s.pollStatus page fun w t => if w.getLsbD 0 then t.doFirst [.wait page] else t

/-- One pass of FINISH's loop: "`RD STATUS -> s; while s[5:4] == 1 (READING) and s[1] == 0 (no error): NEXT 0; WAIT;
RD STATUS -> s`" (30_encoding.md R80; log entry 14). -/
def State.finishOnce (page : Nat) (s : State) : Host.Outcome State Fault Refusal :=
  s.pollStatus page fun w t =>
    if w.extractLsb' 4 2 = 1 ∧ w.getLsbD 1 = false then
      t.doFirst [cmdWrite page (encode (.next 0)), .wait page, .finish page]
    else t

/-- The effect of one host operation. -/
def State.perform (op : HostOp) (s : State) : Host.Outcome State Fault Refusal :=
  match op with
  | .write addr width v => s.busWrite addr width v
  | .read addr width => s.busRead addr width
  | .wait page => s.waitOnce page
  | .finish page => s.finishOnce page
  | .reset page => s.atWindow (windowAddr page 0) fun s => .next s.resetSelf
  | .idle => .next s

/-- The host's turn: its next operation, or nothing but time where it has none (60_exceptions.md R229: an idle engine
"simply keeps its state until the next host access or reset"). -/
def State.hostTurn (s : State) : Host.Outcome State Fault Refusal :=
  match s.queue with
  | [] => .next s.tick
  | op :: rest => State.perform op { s.tick with queue := rest }

/-- One event: a completion that is due, else the host's turn (20_memory.md R64; log entries 2 and 13). -/
def State.event (s : State) : Host.Outcome State Fault Refusal :=
  match s.dueEngine with
  | some k => s.withEngine k State.completeSelf
  | none => s.hostTurn

/-- `s` with the host's next operation the write of the table word `w` to `self`'s CMD, and no completion due before it
(log entry 1). -/
def State.placeCommand (s : State) (nbits w : Nat) : State :=
  let t := s.holdOff
  { t with queue := cmdWrite t.self.page (BitVec.ofNat 32 (w % 2 ^ nbits)) :: t.queue }

end Sys2Proof.Machine
end

