-- ==== Sys2Proof/Machine/Step.lean ====
section
/-! DEFINITION. One step of the machine, and how an instruction is placed before it. The definitions behind both stand in
Machine/Bus.lean. -/

namespace Sys2Proof.Machine

/-- One step: the completion of a command that is due, or the host's next operation. -/
def step (s : State) : Host.Outcome State Fault Refusal := s.event

/-- `s` with the instruction of the opcode-table word `w` as the host's next write to `self`'s CMD register, which is
where commands come from (44_driver.md R180); see log entry 1. -/
def State.withFetchWord (s : State) (nbits w : Nat) : State := s.placeCommand nbits w

end Sys2Proof.Machine
end

