-- ==== Sys2Proof/Machine/Assembler.lean ====
section
/-! DEFINITION. The assembler lines of 30_encoding.md rule R79 and the expansions of its pseudo-instructions (R80), as host
operations on the engine at a window page. -/

namespace Sys2Proof.Machine.Asm

/-- A command line (`NOP`, `INIT MD5`, `NEXT n`, ...): the write of its word to CMD (30_encoding.md R79). -/
def cmd (page : Nat) (i : Instr) : HostOp := cmdWrite page (encode i)

/-- `CMD 0xXXXXXXXX`: any raw word to CMD (30_encoding.md R79). -/
def raw (page : Nat) (c : Word) : HostOp := cmdWrite page c

/-- `WR off, v` (30_encoding.md R79). -/
def wr (page off : Nat) (v : Word) : HostOp := .write (windowAddr page off) .w32 v

/-- `RD off -> name` (30_encoding.md R79). -/
def rd (page off : Nat) : HostOp := .read (windowAddr page off) .w32

/-- `le32(d[4j], d[4j+1], d[4j+2], d[4j+3])`, missing bytes 0 (30_encoding.md R80). -/
def loadWord (bytes : List Byte) (j : Nat) : Word :=
  le32 (bytes.getD (4 * j) 0) (bytes.getD (4 * j + 1) 0) (bytes.getD (4 * j + 2) 0) (bytes.getD (4 * j + 3) 0)

/-- `LOAD bytes`: `WR BUF+4j, ...` for `j = 0 .. ceil(k/4) - 1` (30_encoding.md R80). -/
def load (page : Nat) (bytes : List Byte) : List HostOp :=
  (List.range ((bytes.length + 3) / 4)).map fun j => wr page (0x40 + 4 * j) (loadWord bytes j)

/-- `LOAD bytes; NEXT k; WAIT`, which is `ABSORB` for 64 bytes and `TAIL` for fewer (30_encoding.md R80). -/
def feed (page : Nat) (bytes : List Byte) : List HostOp :=
  load page bytes ++ [cmd page (.next bytes.length), .wait page]

/-- `ABSORB bytes`, exactly 64 of them (30_encoding.md R80). -/
def absorb (page : Nat) (bytes : List Byte) : List HostOp := feed page bytes

/-- `TAIL bytes`, 0 to 63 of them (30_encoding.md R80). -/
def tail (page : Nat) (bytes : List Byte) : List HostOp := feed page bytes

/-- `ABSORB` for each of the first `k` 64-byte chunks, `TAIL` of the bytes after them. -/
def absorbChunks (page : Nat) : Nat → List Byte → List HostOp
  | 0, msg => tail page msg
  | k + 1, msg => absorb page (msg.take 64) ++ absorbChunks page k (msg.drop 64)

/-- The INIT operand of an algorithm (00_scope.md R3). -/
def algNumber : Alg → Nat
  | .md5 => 0
  | .sha256 => 1

/-- How many DIGEST words hold the digest: 4 for MD5, 8 for SHA-256 (30_encoding.md R80). -/
def digestWords : Alg → Nat
  | .md5 => 4
  | .sha256 => 8

/-- `HASH alg, msg` (30_encoding.md R80). -/
def hash (page : Nat) (alg : Alg) (msg : List Byte) : List HostOp :=
  [cmd page (.init (algNumber alg))] ++ absorbChunks page (msg.length / 64) msg ++ [.finish page] ++
    (List.range (digestWords alg)).map fun j => rd page (0x80 + 4 * j)

end Sys2Proof.Machine.Asm
end

