-- ==== Sys2Proof/Safety.lean ====
section
/-! DEFINITION. The terms claims are stated in: the invariant of an engine and of the machine, the states a command gets
past the gates in, the hidden storage erased, and the digest of a message as its padded stream defines it. -/

namespace Sys2Proof.Machine

/-! ### The invariant of one engine -/

/-- ERRCODE "is 0 exactly when `STATUS.ERR = 0`" (10_state.md R34). -/
abbrev Engine.ErrCodeAgrees (e : Engine) : Prop := e.err = false ↔ e.errCode = .none

/-- STATUS.BUSY is 1 exactly while PEND holds a command (10_state.md R28). -/
abbrev Engine.BusyAgrees (e : Engine) : Prop := e.busy = e.pend.isSome

/-- A command in flight was accepted in READING, and nothing moves DRV before it completes (44_driver.md R185, R195). -/
abbrev Engine.PendReading (e : Engine) : Prop := e.pend ≠ none → e.drv = .reading

/-- "BitCount is always a multiple of 8" (40_padder.md R102). -/
abbrev Engine.WholeBytes (e : Engine) : Prop := e.bitCount.extractLsb' 0 3 = 0

/-- DIGEST_VALID is set with FINISHED and cleared by everything that leaves it (10_state.md R30, 43_digest.md R172). -/
abbrev Engine.ValidWhenFinished (e : Engine) : Prop := e.digestValid = true ↔ e.drv = .finished

/-- Only a padder that is DONE finishes a computation (44_driver.md R185). -/
abbrev Engine.FinishedDone (e : Engine) : Prop := e.drv = .finished → e.padState = .done

/-- In READING DIGEST still holds the zeros INIT wrote (43_digest.md R174). -/
abbrev Engine.ReadingDigestZero (e : Engine) : Prop := e.drv = .reading → e.digest = Vector.replicate 32 0

/-- After a failed INIT or an ABORT the driver is in INIT (44_driver.md R182, R188). -/
abbrev Engine.FatalInInit (e : Engine) : Prop :=
  e.errCode = .invalidConfiguration ∨ e.errCode = .sourceReadError → e.drv = .init

/-- WRONG_STATE is recorded outside READING only (60_exceptions.md R211). -/
abbrev Engine.WrongStateOutside (e : Engine) : Prop := e.errCode = .wrongState → e.drv ≠ .reading

/-- While a command is in flight the one error that can be recorded is BUSY_VIOLATION (60_exceptions.md R214, R216). -/
abbrev Engine.BusyErrorOnly (e : Engine) : Prop := e.pend ≠ none → e.err = true → e.errCode = .busyViolation

/-- A finished MD5 computation's DIGEST bytes 16..31 are 0 (10_state.md R35). -/
abbrev Engine.Md5DigestTail (e : Engine) : Prop :=
  e.drv = .finished → e.alg = .md5 → e.digest.toList.drop 16 = zeros 16

/-- What every reachable engine satisfies. -/
abbrev Engine.Inv (e : Engine) : Prop :=
  e.ErrCodeAgrees ∧ e.BusyAgrees ∧ e.PendReading ∧ e.WholeBytes ∧ e.ValidWhenFinished ∧ e.FinishedDone ∧
    e.ReadingDigestZero ∧ e.FatalInInit ∧ e.WrongStateOutside ∧ e.BusyErrorOnly ∧ e.Md5DigestTail

/-- The invariant of the machine: every engine's, and no two windows in one place (60_exceptions.md R227: "Each has its own
window at its own `BASE`"). -/
abbrev State.Inv (s : State) : Prop :=
  (∀ e ∈ s.engines, e.Inv) ∧ (s.engines.map Engine.page).Nodup

/-! ### Premises -/

/-- A command word written now gets past the BUSY and ERR checks of 44_driver.md R180. -/
abbrev State.Ready (s : State) : Prop := s.self.busy = false ∧ s.self.err = false

/-- The effect of a command word's meaning on the engine it is written to (44_driver.md R180): what `exec` does, see
Laws/Ops.lean `exec_eq_issue`. -/
def Engine.issue : Instr → Engine → Engine
  | .nop => Engine.unlessBusyOrError id
  | .init alg =>
    Engine.unlessBusy fun e =>
      match algOperand alg with
      | some a => e.initLegal a
      | none => e.initFail
  | .next n => Engine.unlessBusyOrError (Engine.issueNext n)
  | .compress => Engine.unlessBusyOrError (Engine.ifReading (Engine.accept .compress))
  | .abort => Engine.unlessBusyOrError (Engine.ifReading Engine.abortReading)

/-- The illegal encodings as 30_encoding.md R76 lists them. -/
abbrev illegalWord (c : Word) : Prop :=
  (5 ≤ opField c) ∨ (opField c = 0 ∧ c ≠ 0) ∨ (opField c = 1 ∧ c.extractLsb' 8 24 ≠ 0) ∨
    (opField c = 2 ∧ (c.extractLsb' 4 4 ≠ 0 ∨ c.extractLsb' 15 17 ≠ 0)) ∨
    ((opField c = 3 ∨ opField c = 4) ∧ c.extractLsb' 4 28 ≠ 0)

/-- The next event is the host's, and it is the performed bus write of `v` to offset `off` of the window at `page`. -/
abbrev State.NextWrite (s : State) (page off : Nat) (v : Word) : Prop :=
  s.dueEngine = none ∧ s.queue.head? = some (.write (windowAddr page off) .w32 v) ∧ off < 256 ∧ off % 4 = 0

/-- The next event is the reset signal to the engine at `page` (70_reset_and_hazards.md R240). -/
abbrev State.NextReset (s : State) (page : Nat) : Prop :=
  s.dueEngine = none ∧ s.queue.head? = some (.reset page)

/-- The next event is an INIT with a legal algorithm to the engine at `page` (44_driver.md R181): one of the two words
`INIT MD5` and `INIT SHA256`. -/
abbrev State.NextLegalInit (s : State) (page : Nat) : Prop :=
  s.NextWrite page 0 0x00000001#32 ∨ s.NextWrite page 0 0x00000011#32

/-! ### The padded block, byte by byte -/

/-- Byte `j` (56..63) of a block's length field: big-endian for SHA-256, little-endian for MD5 (40_padder.md R103). -/
def lengthByte (bc : BitVec 64) (alg : Alg) (j : Nat) : Byte :=
  match alg with
  | .sha256 => byteOf bc (63 - j)
  | .md5 => byteOf bc (j - 56)

/-- Byte `j` (0..63) of the block a NEXT of count `n` forms in READING: the data, the marker at `n` when `n < 64`, the
length in bytes 56..63 when `n < 56`, zeros elsewhere (40_padder.md R104). -/
def dataBlockByte (buf : Vector Byte 64) (n : Nat) (bc : BitVec 64) (alg : Alg) (j : Fin 64) : Byte :=
  if j.val < n then buf[j]
  else if j.val = n then 0x80
  else if n < 56 ∧ 56 ≤ j.val then lengthByte bc alg j.val
  else 0

/-- Byte `j` (0..63) of the pad-only block (40_padder.md R105). -/
def padOnlyByte (bc : BitVec 64) (alg : Alg) (j : Fin 64) : Byte :=
  if j.val < 56 then 0 else lengthByte bc alg j.val

/-! ### Hidden storage erased -/

/-- The engine with its hidden storage blanked (10_state.md R24, R25). -/
def Engine.hide (e : Engine) : Engine := { e with scratch := Scratch.zero }

/-- The machine with every engine's hidden storage blanked. -/
def State.hide (s : State) : State := { s with self := s.self.hide, peers := s.peers.map Engine.hide }

/-- A function on the next state of an outcome. -/
def onNext (f : State → State) : Host.Outcome State Fault Refusal → Host.Outcome State Fault Refusal
  | .next s => .next (f s)
  | .fault r => .fault r
  | .refused r => .refused r

/-! ### The digest of a message -/

/-- Folds the first `k` 64-byte blocks of a byte stream into a chaining state, in order (00_scope.md glossary,
Merkle-Damgård construction). -/
def foldBlocks (alg : Alg) : Nat → List Byte → Vector Word 8 → Vector Word 8
  | 0, _, h => h
  | k + 1, l, h => foldBlocks alg k (l.drop 64) (compressWords alg h (bytesOf 64 (l.take 64)))

/-- The digest the padded stream of a message defines: its blocks folded from the initial chaining state, serialized
(40_padder.md R114, 43_digest.md R170). -/
def messageDigest (alg : Alg) (msg : List Byte) : Vector Byte 32 :=
  serialize (foldBlocks alg ((paddedStream msg alg).length / 64) (paddedStream msg alg) (initialWords alg)) alg

/-- The host has written the bytes `d` to the front of BUF (70_reset_and_hazards.md R242, R243). -/
def Engine.loadBytes (d : List Byte) (e : Engine) : Engine :=
  { e with buf := Vector.ofFn fun j => if j.val < d.length then d.getD j.val 0 else e.buf[j] }

/-- One iteration of the host's loop: the bytes `d` in BUF, NEXT of their number, its completion (44_driver.md R186). -/
def Engine.runNext (d : List Byte) (e : Engine) : Engine :=
  (Engine.unlessBusyOrError (Engine.issueNext d.length) (e.loadBytes d)).complete

/-- The counts and bytes of the NEXT commands of a message up to its last short block: `k` full chunks, then the rest
(40_padder.md R115). -/
def chunksOf : Nat → List Byte → List (List Byte)
  | 0, msg => [msg]
  | k + 1, msg => msg.take 64 :: chunksOf k (msg.drop 64)

/-- The NEXT commands of a whole message: the chunks, one pad-only NEXT when `L mod 64 >= 56`, and the one that commits the
digest (40_padder.md R115). -/
def messageNexts (msg : List Byte) : List (List Byte) :=
  chunksOf (msg.length / 64) msg ++ (if 56 ≤ msg.length % 64 then [[]] else []) ++ [[]]

/-- The driver loop run by the host: INIT, then the NEXT commands in order (44_driver.md R186). -/
def Engine.driverLoop (alg : Alg) (msg : List Byte) (e : Engine) : Engine :=
  (messageNexts msg).foldl (fun e d => e.runNext d) (e.initLegal alg)

end Sys2Proof.Machine
end

