-- ==== Sys2Proof/Certificates/Slice0/Obligations.lean ====
section
/-! DEFINITION. The statements for the provers, from the numbered rules of spec/, grouped by the spec's files. -/

open Sys2Proof Sys2Proof.Machine

/-! ### 30_encoding.md: encoding and decoding -/

/-- The command words of the assembler table (30_encoding.md section 5) decode to their commands. -/
def Obligations.SpecWordsDecode : Prop :=
  decode 0x00000000#32 = .ok .nop ∧ decode 0x00000001#32 = .ok (.init 0) ∧ decode 0x00000011#32 = .ok (.init 1) ∧
    decode 0x000000F1#32 = .ok (.init 15) ∧ decode 0x00000302#32 = .ok (.next 3) ∧
    decode 0x00004002#32 = .ok (.next 64) ∧ decode 0x00007F02#32 = .ok (.next 127) ∧
    decode 0x00000003#32 = .ok .compress ∧ decode 0x00000004#32 = .ok .abort

/-- Decoding the word, or the bytes, of a well-formed command gives the command back, every operand at every value its
field holds (30_encoding.md R72, R73, R75), and exactly four bytes are used (R70). -/
def Obligations.DecodeOfEncodeIsIdentity : Prop :=
  ∀ i : Instr, i.WellFormed →
    decode (encode i) = .ok i ∧ ∀ rest, decodeBytes (encodeBytes i ++ rest) = .ok (i, rest)

/-- Each word has one meaning: a word that decodes is the encoding of a well-formed command (30_encoding.md R72, R75). -/
def Obligations.EncodeOfDecodeIsIdentity : Prop :=
  ∀ (c : Word) (i : Instr), decode c = .ok i → i.WellFormed ∧ encode i = c

/-- Which words decode to which command, by the masks and matches of spec/opcode_table.json, with the operand read by
shift and mask (30_encoding.md R72, R73). -/
def Obligations.DecodeMatchesOpcodeTable : Prop :=
  ∀ c : Word,
    (decode c = .ok .nop ↔ c &&& 0xFFFFFFFF#32 = 0x00000000#32) ∧
    (∀ a, decode c = .ok (.init a) ↔ c &&& 0xFFFFFF0F#32 = 0x00000001#32 ∧ a = c.toNat / 2 ^ 4 % 2 ^ 4) ∧
    (∀ n, decode c = .ok (.next n) ↔ c &&& 0xFFFF80FF#32 = 0x00000002#32 ∧ n = c.toNat / 2 ^ 8 % 2 ^ 7) ∧
    (decode c = .ok .compress ↔ c &&& 0xFFFFFFFF#32 = 0x00000003#32) ∧
    (decode c = .ok .abort ↔ c &&& 0xFFFFFFFF#32 = 0x00000004#32)

/-- 30_encoding.md R76: each illegal encoding it lists records ILLEGAL_COMMAND and changes nothing else, and the words it
lists are all the words that are no command. -/
def Obligations.IllegalEncodingsRecordIllegalCommand : Prop :=
  (∀ (s : State) (c : Word), s.Ready → illegalWord c →
    s.writeCmd c = .next { s with self := { s.self with err := true, errCode := .illegalCommand } }) ∧
  (∀ c : Word, illegalWord c ↔ ∀ i, decode c ≠ .ok i)

/-! ### 44_driver.md and 60_exceptions.md: taking a command -/

/-- 60_exceptions.md R215, the priority of the conditions one write can meet, each with the whole state it leaves. -/
def Obligations.CommandWritePriority : Prop :=
  ∀ (s : State) (c : Word),
    (s.self.busy = true → s.self.err = false →
      s.writeCmd c = .next { s with self := { s.self with err := true, errCode := .busyViolation } }) ∧
    (s.self.busy = true → s.self.err = true → s.writeCmd c = .next s) ∧
    (s.self.busy = false → s.self.err = true → (∀ a, decode c ≠ .ok (.init a)) → s.writeCmd c = .next s) ∧
    (s.Ready → (∀ i, decode c ≠ .ok i) →
      s.writeCmd c = .next { s with self := { s.self with err := true, errCode := .illegalCommand } }) ∧
    (s.Ready → ∀ n, decode c = .ok (.next n) → 64 < n →
      s.writeCmd c = .next { s with self := { s.self with err := true, errCode := .badLength } }) ∧
    (s.self.busy = false → ∀ a, decode c = .ok (.init a) → 1 < a →
      s.writeCmd c = .next { s with self :=
        { s.self with drv := .init, digestValid := false, err := true, errCode := .invalidConfiguration } }) ∧
    (s.Ready → s.self.drv ≠ .reading →
      ((∃ n, n ≤ 64 ∧ decode c = .ok (.next n)) ∨ decode c = .ok .compress ∨ decode c = .ok .abort) →
      s.writeCmd c = .next { s with self := { s.self with err := true, errCode := .wrongState } })

/-- No command stops the machine: each changes at most the engine it is written to, and of that neither BUF nor the
platform's BASE nor the hidden storage; BITCOUNT, DIGEST, ALG, H and PADSTATE only if it is an INIT (10_state.md R41,
60_exceptions.md R217, R221). For every BUF word a read gives what it gave before. -/
def Obligations.CommandFrame : Prop :=
  ∀ (i : Instr) (s : State), ∃ t, exec i s = .next t ∧
    t.peers = s.peers ∧ t.queue = s.queue ∧ t.reads = s.reads ∧ t.draws = s.draws ∧
    t.self.buf = s.self.buf ∧ t.self.page = s.self.page ∧ t.self.scratch = s.self.scratch ∧
    (∀ (k : Fin 16) (v w : Word), t.self.readReg v (.buf k) = s.self.readReg w (.buf k)) ∧
    ((∀ a, i ≠ .init a) →
      t.self.h = s.self.h ∧ t.self.bitCount = s.self.bitCount ∧ t.self.padState = s.self.padState ∧
      t.self.alg = s.self.alg ∧ t.self.digest = s.self.digest) ∧
    ((i = .nop ∨ i = .abort ∨ ∃ a, i = .init a) →
      t.self.busy = s.self.busy ∧ t.self.pend = s.self.pend ∧ t.self.timer = s.self.timer ∧
      t.self.latencies = s.self.latencies) ∧
    ((i = .nop ∨ i = .compress ∨ ∃ n, i = .next n) →
      t.self.drv = s.self.drv ∧ t.self.digestValid = s.self.digestValid)

/-- 60_exceptions.md R214: while ERR = 1 every word but an INIT is ignored; host writes to H and BUF are still performed,
and reads (but of STATUS and ERRCODE, which show the error) are unaffected. -/
def Obligations.ErrorGatesCommandsOnly : Prop :=
  ∀ s : State, s.self.busy = false → s.self.err = true →
    (∀ c, (∀ a, decode c ≠ .ok (.init a)) → s.writeCmd c = .next s) ∧
    (∀ (i : Fin 8) (v : Word),
      s.writeSelf (.h i) v = .next { s with self := { s.self with h := s.self.h.set i.val v } }) ∧
    (∀ (k : Fin 16) (v : Word), ∃ t, s.writeSelf (.buf k) v = .next t ∧
      (∀ j : Fin 64, t.self.buf[j] = if j.val / 4 = k.val then byteOf v (j.val % 4) else s.self.buf[j]) ∧
      t = { s with self := { s.self with buf := t.self.buf } }) ∧
    (∀ (r : WindowReg) (w : Word), r ≠ .status → r ≠ .errcode →
      s.self.readReg w r = { s.self with err := false, errCode := .none }.readReg w r)

/-- 20_memory.md R59: while BUSY a write to CMD, to H or to BUF is dropped and records BUSY_VIOLATION as 60_exceptions.md R216
says, and the command in flight completes as it would have. -/
def Obligations.BusyWritesAreDropped : Prop :=
  (∀ (s : State) (r : WindowReg) (v : Word), s.self.busy = true →
    (r = .cmd ∨ (∃ i, r = .h i) ∨ ∃ k, r = .buf k) →
    (s.self.err = false →
      s.writeSelf r v = .next { s with self := { s.self with err := true, errCode := .busyViolation } }) ∧
    (s.self.err = true → s.writeSelf r v = .next s)) ∧
  (∀ e : Engine, { e with err := true, errCode := .busyViolation }.complete =
    { e.complete with err := true, errCode := .busyViolation })

/-- 44_driver.md R190: NOP changes nothing, in every driver state and whether or not an error is recorded; a word with OP = 0
and any other bit set is ILLEGAL_COMMAND. -/
def Obligations.NopDoesNothing : Prop :=
  decode 0x00000000#32 = .ok .nop ∧
  (∀ s : State, s.self.busy = false → exec .nop s = .next s) ∧
  (∀ (s : State) (c : Word), s.Ready → opField c = 0 → c ≠ 0 →
    s.writeCmd c = .next { s with self := { s.self with err := true, errCode := .illegalCommand } })

/-- 44_driver.md R181, R182, with the constants of 41_permuter_rom.md R124, R132: what INIT leaves, for each of its operand
values, in every driver state and whether or not an error is recorded; a second INIT changes nothing. -/
def Obligations.InitStartsComputation : Prop :=
  decode 0x00000001#32 = .ok (.init 0) ∧ decode 0x00000011#32 = .ok (.init 1) ∧
  (∀ s : State, s.self.busy = false →
    exec (.init 1) s = .next { s with self := { s.self with
      alg := .sha256
      h := #v[0x6a09e667#32, 0xbb67ae85#32, 0x3c6ef372#32, 0xa54ff53a#32, 0x510e527f#32, 0x9b05688c#32, 0x1f83d9ab#32,
        0x5be0cd19#32]
      bitCount := 0, padState := .reading, drv := .reading, digestValid := false
      digest := Vector.replicate 32 0, err := false, errCode := .none } } ∧
    exec (.init 0) s = .next { s with self := { s.self with
      alg := .md5
      h := #v[0x67452301#32, 0xefcdab89#32, 0x98badcfe#32, 0x10325476#32, 0#32, 0#32, 0#32, 0#32]
      bitCount := 0, padState := .reading, drv := .reading, digestValid := false
      digest := Vector.replicate 32 0, err := false, errCode := .none } } ∧
    (∀ a, 1 < a → exec (.init a) s = .next { s with self := { s.self with
      drv := .init, digestValid := false, err := true, errCode := .invalidConfiguration } }) ∧
    (∀ a t, exec (.init a) s = .next t → exec (.init a) t = .next t)) ∧
  (∀ (s : State) (c : Word), s.Ready → opField c = 1 → c.extractLsb' 8 24 ≠ 0 →
    s.writeCmd c = .next { s with self := { s.self with err := true, errCode := .illegalCommand } })

/-- 44_driver.md R188: ABORT in READING, and elsewhere; after it only INIT is taken; while a command is in flight its write
is a BUSY_VIOLATION. -/
def Obligations.AbortAbandonsComputation : Prop :=
  decode 0x00000004#32 = .ok .abort ∧
  (∀ s : State, s.self.busy = true → s.self.err = false →
    exec .abort s = .next { s with self := { s.self with err := true, errCode := .busyViolation } }) ∧
  ∀ s : State, s.Ready →
    (s.self.drv = .reading → ∃ t, exec .abort s = .next t ∧
      t = { s with self := { s.self with
        drv := .init, digestValid := false, err := true, errCode := .sourceReadError } } ∧
      ∀ i, (∀ a, i ≠ .init a) → exec i t = .next t) ∧
    (s.self.drv ≠ .reading →
      exec .abort s = .next { s with self := { s.self with err := true, errCode := .wrongState } })

/-- 60_exceptions.md R213, R222: an error recorded is kept until it is cleared, except that a failed INIT overwrites the
code. -/
def Obligations.FirstErrorIsKept : Prop :=
  ∀ (s t : State), step s = .next t → ∀ (k : Nat) (e e' : Engine), s.engines[k]? = some e → t.engines[k]? = some e' →
    e.err = true → (e'.err ≠ e.err ∨ e'.errCode ≠ e.errCode) →
    (s.NextLegalInit e.page ∧ e'.err = false ∧ e'.errCode = .none) ∨
    (s.NextReset e.page ∧ e'.err = false ∧ e'.errCode = .none) ∨
    ((∃ c a, s.NextWrite e.page 0 c ∧ decode c = .ok (.init a) ∧ 1 < a) ∧ e'.err = true ∧
      e'.errCode = .invalidConfiguration)

/-- 60_exceptions.md R218: only reset and an INIT with a legal algorithm clear an error, and they do. -/
def Obligations.ErrorsClearedOnlyByResetAndInit : Prop :=
  (∀ (s t : State), step s = .next t → ∀ (k : Nat) (e e' : Engine),
    s.engines[k]? = some e → t.engines[k]? = some e' →
    ((e.err = true ∧ e'.err = false) ∨ (e.errCode ≠ .none ∧ e'.errCode = .none)) →
    s.NextReset e.page ∨ s.NextLegalInit e.page) ∧
  (∀ (s : State) (rest : List HostOp), s.dueEngine = none → s.self.busy = false →
    (s.queue = cmdWrite s.self.page 0x00000001#32 :: rest ∨ s.queue = cmdWrite s.self.page 0x00000011#32 :: rest) →
    ∃ t, step s = .next t ∧ t.self.err = false ∧ t.self.errCode = .none) ∧
  (∀ (s : State) (rest : List HostOp), s.dueEngine = none → s.queue = .reset s.self.page :: rest →
    ∃ t, step s = .next t ∧ t.self.err = false ∧ t.self.errCode = .none)

/-! ### 40_padder.md and 43_digest.md: NEXT -/

/-- NEXT's checks (40_padder.md R109): the count first, in every driver state; then the driver state. -/
def Obligations.NextChecksCountThenDriver : Prop :=
  ∀ (s : State) (n : Nat), s.Ready →
    (64 < n → exec (.next n) s = .next { s with self := { s.self with err := true, errCode := .badLength } }) ∧
    (n ≤ 64 → s.self.drv ≠ .reading →
      exec (.next n) s = .next { s with self := { s.self with err := true, errCode := .wrongState } })

/-- 40_padder.md R110 with the block of R104, byte by byte: in the padder state READING a NEXT of every legal count is
accepted, and its completion adds 8n to BITCOUNT, folds exactly that block into H, and moves PADSTATE; nothing else of
the engine changes but the hidden storage. -/
def Obligations.NextFoldsPaddedDataBlock : Prop :=
  ∀ (s : State) (n : Fin 65), s.Ready → s.self.drv = .reading → s.self.padState = .reading →
    ∃ t x, exec (.next n.val) s = .next t ∧
      t = { s with self := { s.self with
        busy := true, pend := some (.next n), timer := s.self.latencies.headD 0
        latencies := s.self.latencies.tail } } ∧
      x.blk = Vector.ofFn (dataBlockByte s.self.buf n.val (s.self.bitCount + BitVec.ofNat 64 (8 * n.val)) s.self.alg) ∧
      t.self.complete = { t.self with
        busy := false, pend := none
        bitCount := s.self.bitCount + BitVec.ofNat 64 (8 * n.val)
        h := compressWords s.self.alg s.self.h x.blk
        padState := if n.val = 64 then .reading else if n.val < 56 then .done else .onePadEmitted
        scratch := x }

/-- 40_padder.md R112 with the block of R105, byte by byte: in ONE_PAD_ALREADY_EMITTED a NEXT of every legal count is
accepted, and its completion folds the pad-only block, reads no BUF byte, keeps BITCOUNT and sets DONE. -/
def Obligations.NextFoldsPadOnlyBlock : Prop :=
  ∀ (s : State) (n : Fin 65), s.Ready → s.self.drv = .reading → s.self.padState = .onePadEmitted →
    ∃ t x, exec (.next n.val) s = .next t ∧
      t = { s with self := { s.self with
        busy := true, pend := some (.next n), timer := s.self.latencies.headD 0
        latencies := s.self.latencies.tail } } ∧
      x.blk = Vector.ofFn (padOnlyByte s.self.bitCount s.self.alg) ∧
      t.self.complete = { t.self with
        busy := false, pend := none
        h := compressWords s.self.alg s.self.h x.blk
        padState := .done
        scratch := x }

/-- 70_reset_and_hazards.md R243: what a completion reads. Two engines that differ only in BUF bytes the command does not
name, and in hidden storage, complete to engines that differ only there: NEXT n in READING reads BUF[0..n-1], NEXT in the
other padder states no byte of BUF. -/
def Obligations.CompletionReadsOnlyNamedBytes : Prop :=
  ∀ (e : Engine) (b : Vector Byte 64) (n : Fin 65), e.pend = some (.next n) →
    (e.padState = .reading → ∀ j : Fin 64, j.val < n.val → b[j] = e.buf[j]) →
    { e with buf := b }.complete.hide = { e.complete with buf := b }.hide

/-- 43_digest.md R172 with the bytes of R170: in DONE a NEXT of every legal count is accepted, and its completion writes
DIGEST, sets DIGEST_VALID and FINISHED and compresses nothing; from FINISHED every later NEXT, COMPRESS or ABORT is
WRONG_STATE. -/
def Obligations.NextCommitsDigest : Prop :=
  (∀ (s : State) (n : Fin 65), s.Ready → s.self.drv = .reading → s.self.padState = .done →
    ∃ t d, exec (.next n.val) s = .next t ∧
      t = { s with self := { s.self with
        busy := true, pend := some (.next n), timer := s.self.latencies.headD 0
        latencies := s.self.latencies.tail } } ∧
      (s.self.alg = .sha256 → ∀ (k : Fin 8) (j : Fin 4),
        d[4 * k.val + j.val] = byteOf s.self.h[k] (3 - j.val)) ∧
      (s.self.alg = .md5 → (∀ (k : Fin 4) (j : Fin 4), d[4 * k.val + j.val] = byteOf s.self.h[k.val] j.val) ∧
        ∀ j : Fin 16, d[16 + j.val] = 0) ∧
      t.self.complete = { t.self with
        busy := false, pend := none, digest := d, digestValid := true, drv := .finished }) ∧
  (∀ (s : State) (i : Instr), s.Ready → s.self.drv = .finished →
    (i = .compress ∨ i = .abort ∨ ∃ n, n ≤ 64 ∧ i = .next n) →
    exec i s = .next { s with self := { s.self with err := true, errCode := .wrongState } })

/-- PADSTATE's transitions (40_padder.md R111): whatever the step, PADSTATE changes only by a legal INIT or reset, to
READING, or by the completion of a NEXT, along the table. -/
def Obligations.PadStateMovesOnlyAlongTable : Prop :=
  ∀ (s t : State), step s = .next t → ∀ (k : Nat) (e e' : Engine), s.engines[k]? = some e → t.engines[k]? = some e' →
    e'.padState ≠ e.padState →
    ((s.NextLegalInit e.page ∨ s.NextReset e.page) ∧ e'.padState = .reading) ∨
    (s.dueEngine = some k ∧ ∃ n : Fin 65, e.pend = some (.next n) ∧
      ((e.padState = .reading ∧ n.val < 56 ∧ e'.padState = .done) ∨
       (e.padState = .reading ∧ 56 ≤ n.val ∧ n.val ≤ 63 ∧ e'.padState = .onePadEmitted) ∨
       (e.padState = .onePadEmitted ∧ e'.padState = .done)))

/-- 10_state.md R26, R36: BITCOUNT changes only to 0, by a legal INIT (or reset), or by the completion of a NEXT of length n
accepted in READING, to `(BITCOUNT + 8n) mod 2^64`; the host reads its halves and cannot write it. -/
def Obligations.BitCountLaw : Prop :=
  (∀ (s t : State), step s = .next t → ∀ (k : Nat) (e e' : Engine), s.engines[k]? = some e → t.engines[k]? = some e' →
    e'.bitCount ≠ e.bitCount →
    ((s.NextLegalInit e.page ∨ s.NextReset e.page) ∧ e'.bitCount = 0) ∨
    (s.dueEngine = some k ∧ e.padState = .reading ∧ ∃ n : Fin 65, e.pend = some (.next n) ∧
      e'.bitCount.toNat = (e.bitCount.toNat + 8 * n.val) % 2 ^ 64)) ∧
  (∀ (s : State) (a : Nat), s.self.busy = false → a ≤ 1 →
    ∃ t, exec (.init a) s = .next t ∧ t.self.bitCount = 0) ∧
  (∀ (e : Engine) (n : Fin 65), e.pend = some (.next n) → e.padState = .reading →
    e.complete.bitCount.toNat = (e.bitCount.toNat + 8 * n.val) % 2 ^ 64) ∧
  (∀ (e : Engine) (w : Word), e.busy = false →
    (e.readReg w .bitCountLo).toNat = e.bitCount.toNat % 2 ^ 32 ∧
    (e.readReg w .bitCountHi).toNat = e.bitCount.toNat / 2 ^ 32) ∧
  (∀ (s : State) (v : Word), s.writeSelf .bitCountLo v = .next s ∧ s.writeSelf .bitCountHi v = .next s)

/-- The padded stream of a message (40_padder.md R114): the message, one marker at offset L, zeros, the bit length in the
last 8 bytes, in all 64 * (L/64 + 1 + [L mod 64 >= 56]) bytes. -/
def Obligations.PaddedStreamShape : Prop :=
  ∀ (msg : List Byte) (alg : Alg),
    let p := paddedStream msg alg
    p.length = 64 * (msg.length / 64 + 1 + if 56 ≤ msg.length % 64 then 1 else 0) ∧
    p.take msg.length = msg ∧
    p[msg.length]? = some 0x80#8 ∧
    (∀ j, msg.length < j → j < p.length - 8 → p[j]? = some 0#8) ∧
    p.drop (p.length - 8) = len8 (BitVec.ofNat 64 (8 * msg.length)) alg

/-- The driver loop computes the digest (40_padder.md R114, R115, 43_digest.md R174): from any engine with no
command in flight, INIT, then NEXT of each 64-byte chunk and of the rest, the pad-only NEXT when it is needed and the
committing NEXT, in all `floor(L/64) + 2 + [L mod 64 >= 56]` of them, finish without an error and leave in DIGEST the
digest that the message's padded stream defines, and in BITCOUNT the number of its bits. -/
def Obligations.DriverLoopComputesMessageDigest : Prop :=
  ∀ (alg : Alg) (msg : List Byte) (e : Engine), e.busy = false →
    (messageNexts msg).length = msg.length / 64 + 2 + (if 56 ≤ msg.length % 64 then 1 else 0) ∧
    (e.driverLoop alg msg).digest = messageDigest alg msg ∧
    (e.driverLoop alg msg).drv = .finished ∧ (e.driverLoop alg msg).digestValid = true ∧
    (e.driverLoop alg msg).err = false ∧ (e.driverLoop alg msg).errCode = .none ∧
    (e.driverLoop alg msg).bitCount = BitVec.ofNat 64 (8 * msg.length)

/-! ### 42_compression.md and 41_permuter_rom.md -/

/-- 42_compression.md R160: COMPRESS in READING is accepted, and its completion folds BUF[0..63] into H and changes nothing
else of the engine but the hidden storage; elsewhere it is WRONG_STATE. -/
def Obligations.CompressFoldsBuffer : Prop :=
  decode 0x00000003#32 = .ok .compress ∧
  ∀ s : State, s.Ready →
    (s.self.drv = .reading → ∃ t x, exec .compress s = .next t ∧
      t = { s with self := { s.self with
        busy := true, pend := some .compress, timer := s.self.latencies.headD 0
        latencies := s.self.latencies.tail } } ∧
      x.blk = s.self.buf ∧
      t.self.complete = { t.self with
        busy := false, pend := none, h := compressWords s.self.alg s.self.h s.self.buf, scratch := x }) ∧
    (s.self.drv ≠ .reading →
      exec .compress s = .next { s with self := { s.self with err := true, errCode := .wrongState } })

/-- 42_compression.md R145, R146: the schedule is the 16 big-endian block words and the recurrence for every t in 16..63;
R145, R147: each of the 64 rounds, and the final addition slot for slot. The rotations are written with Lean's own
`rotateRight`. -/
def Obligations.Sha256FollowsRoundEquations : Prop :=
  ∀ (hin : Vector Word 8) (blk : Vector Byte 64),
    let W := shaBlockSchedule blk
    let R := fun t => shaRounds W (shaLoad hin) t
    W.length = 64 ∧
    (∀ t : Fin 16, W.getD t.val 0 =
      blk[4 * t.val] ++ blk[4 * t.val + 1] ++ blk[4 * t.val + 2] ++ blk[4 * t.val + 3]) ∧
    (∀ t, 16 ≤ t → t < 64 → W.getD t 0 =
      ((W.getD (t - 2) 0).rotateRight 17 ^^^ (W.getD (t - 2) 0).rotateRight 19 ^^^ (W.getD (t - 2) 0) >>> 10) +
        W.getD (t - 7) 0 +
      ((W.getD (t - 15) 0).rotateRight 7 ^^^ (W.getD (t - 15) 0).rotateRight 18 ^^^ (W.getD (t - 15) 0) >>> 3) +
        W.getD (t - 16) 0) ∧
    R 0 = ⟨hin[0], hin[1], hin[2], hin[3], hin[4], hin[5], hin[6], hin[7]⟩ ∧
    (∀ t, t < 64 →
      let r := R t
      let t1 := r.h + (r.e.rotateRight 6 ^^^ r.e.rotateRight 11 ^^^ r.e.rotateRight 25) +
        ((r.e &&& r.f) ^^^ (~~~r.e &&& r.g)) + Rom.shaK t + W.getD t 0
      let t2 := (r.a.rotateRight 2 ^^^ r.a.rotateRight 13 ^^^ r.a.rotateRight 22) +
        ((r.a &&& r.b) ^^^ (r.a &&& r.c) ^^^ (r.b &&& r.c))
      R (t + 1) = ⟨t1 + t2, r.a, r.b, r.c, r.d + t1, r.e, r.f, r.g⟩) ∧
    sha256Compress hin blk =
      #v[hin[0] + (R 64).a, hin[1] + (R 64).b, hin[2] + (R 64).c, hin[3] + (R 64).d,
        hin[4] + (R 64).e, hin[5] + (R 64).f, hin[6] + (R 64).g, hin[7] + (R 64).h]

/-- 42_compression.md R150, R151, R155, R156 with the tables of 41_permuter_rom.md R128, R129, R130: the message words are the
16 little-endian block words; each of the 64 rounds, by its group's function, index rule and rotation amounts; and the
final addition. -/
def Obligations.Md5FollowsRoundEquations : Prop :=
  ∀ (hin : Vector Word 4) (blk : Vector Byte 64),
    let M := blockWords blk .md5
    let R := fun i => md5Rounds M (md5Load hin) i
    (∀ k : Fin 16, M[k] = blk[4 * k.val + 3] ++ blk[4 * k.val + 2] ++ blk[4 * k.val + 1] ++ blk[4 * k.val]) ∧
    R 0 = ⟨hin[0], hin[1], hin[2], hin[3]⟩ ∧
    (∀ i : Fin 64,
      let r := R i.val
      let f := if i.val < 16 then (r.b &&& r.c) ||| (~~~r.b &&& r.d)
        else if i.val < 32 then (r.b &&& r.d) ||| (r.c &&& ~~~r.d)
        else if i.val < 48 then r.b ^^^ r.c ^^^ r.d
        else r.c ^^^ (r.b ||| ~~~r.d)
      let idx := if i.val < 16 then i.val
        else if i.val < 32 then (5 * i.val + 1) % 16
        else if i.val < 48 then (3 * i.val + 5) % 16
        else (7 * i.val) % 16
      let amount := if i.val < 16 then [7, 12, 17, 22].getD (i.val % 4) 0
        else if i.val < 32 then [5, 9, 14, 20].getD (i.val % 4) 0
        else if i.val < 48 then [4, 11, 16, 23].getD (i.val % 4) 0
        else [6, 10, 15, 21].getD (i.val % 4) 0
      R (i.val + 1) = ⟨r.d, r.b + (r.a + f + M.getD idx 0 + Rom.md5T i.val).rotateLeft amount, r.b, r.c⟩) ∧
    md5Compress hin blk =
      #v[hin[0] + (R 64).a, hin[1] + (R 64).b, hin[2] + (R 64).c, hin[3] + (R 64).d]

/-- 41_permuter_rom.md R128, R129, R130: the rotation amounts and the message-word indexes of the 64 MD5 rounds, group by
group, the amounts in 4..23, each group's indexes a permutation of 0..15, and each group's function. -/
def Obligations.Md5RoundTables : Prop :=
  (∀ g : Fin 4, ∀ j : Fin 16, Rom.md5S (16 * g.val + j.val) =
    (match g.val, j.val % 4 with
      | 0, 0 => 7 | 0, 1 => 12 | 0, 2 => 17 | 0, _ => 22
      | 1, 0 => 5 | 1, 1 => 9 | 1, 2 => 14 | 1, _ => 20
      | 2, 0 => 4 | 2, 1 => 11 | 2, 2 => 16 | 2, _ => 23
      | _, 0 => 6 | _, 1 => 10 | _, 2 => 15 | _, _ => 21)) ∧
  (∀ i : Fin 64, 4 ≤ Rom.md5S i.val ∧ Rom.md5S i.val ≤ 23) ∧
  (List.range 64).map Rom.md5Idx =
    [0, 1, 2, 3, 4, 5, 6, 7, 8, 9, 10, 11, 12, 13, 14, 15] ++ [1, 6, 11, 0, 5, 10, 15, 4, 9, 14, 3, 8, 13, 2, 7, 12] ++
      [5, 8, 11, 14, 1, 4, 7, 10, 13, 0, 3, 6, 9, 12, 15, 2] ++ [0, 7, 14, 5, 12, 3, 10, 1, 8, 15, 6, 13, 4, 11, 2, 9] ∧
  (∀ g : Fin 4, ∀ k : Fin 16, ∃ j : Fin 16, Rom.md5Idx (16 * g.val + j.val) = k.val ∧
    ∀ j' : Fin 16, Rom.md5Idx (16 * g.val + j'.val) = k.val → j' = j) ∧
  (∀ (j : Fin 16) (x y z : Word), md5Fn j.val x y z = md5F x y z ∧ md5Fn (16 + j.val) x y z = md5G x y z ∧
    md5Fn (32 + j.val) x y z = md5H x y z ∧ md5Fn (48 + j.val) x y z = md5I x y z)

/-- 41_permuter_rom.md R123, R124: every SHA-256 constant is what the rule's parenthesis says, the first 32 bits of the
fractional part of the cube root (`K`) or square root (`IV256`) of the prime of its index: with `f` the integer part,
`f * 2^32 + constant` is the root scaled by 2^32 and rounded down. -/
def Obligations.Sha256ConstantsAreRootFractions : Prop :=
  let primes := (List.range 312).filter fun p => decide (2 ≤ p) && (List.range p).all fun d => d < 2 || p % d != 0
  primes.length = 64 ∧
  (∀ t : Fin 64, ∃ f : Fin 8,
    (f.val * 2 ^ 32 + (Rom.shaK t.val).toNat) ^ 3 ≤ primes.getD t.val 0 * 2 ^ 96 ∧
    primes.getD t.val 0 * 2 ^ 96 < (f.val * 2 ^ 32 + (Rom.shaK t.val).toNat + 1) ^ 3) ∧
  (∀ j : Fin 8, ∃ f : Fin 8,
    (f.val * 2 ^ 32 + (Rom.iv256[j]).toNat) ^ 2 ≤ primes.getD j.val 0 * 2 ^ 64 ∧
    primes.getD j.val 0 * 2 ^ 64 < (f.val * 2 ^ 32 + (Rom.iv256[j]).toNat + 1) ^ 2)

/-- 41_permuter_rom.md R131: the role-table form, with the registers kept in their places, gives exactly the same result as
the rotating form. -/
def Obligations.Md5RoleTableFormIsEquivalent : Prop :=
  ∀ (M : Vector Word 16) (r : Md5Regs),
    let q := md5Rounds M r 64
    md5PlaceRounds M #v[r.a, r.b, r.c, r.d] 64 = #v[q.a, q.b, q.c, q.d]

/-- 10_state.md R22: H[4..7] are set to 0 by INIT with MD5, and neither read nor written by the MD5 compression or the MD5
serializer; a host write to one of them is kept and changes nothing else; the working registers are loaded from H[0..3]
with MD5 and from H[0..7] with SHA-256. -/
def Obligations.Md5UsesFourWordsOnly : Prop :=
  (∀ (e : Engine) (k : Fin 8), 4 ≤ k.val → (e.initLegal .md5).h[k] = 0) ∧
  (∀ (h h' : Vector Word 8) (b : Vector Byte 64), (∀ k : Fin 8, k.val < 4 → h[k] = h'[k]) →
    (∀ k : Fin 8, k.val < 4 → (compressWords .md5 h b)[k] = (compressWords .md5 h' b)[k]) ∧
    (∀ k : Fin 8, 4 ≤ k.val → (compressWords .md5 h b)[k] = h[k]) ∧
    serialize h .md5 = serialize h' .md5) ∧
  (∀ (s : State) (i : Fin 8) (v : Word), s.self.busy = false → 4 ≤ i.val →
    s.writeSelf (.h i) v = .next { s with self := { s.self with h := s.self.h.set i.val v } }) ∧
  (∀ h : Vector Word 8, md5Load (md5Part h) = ⟨h[0], h[1], h[2], h[3]⟩ ∧
    shaLoad h = ⟨h[0], h[1], h[2], h[3], h[4], h[5], h[6], h[7]⟩)

/-- 41_permuter_rom.md R121: for a block taken verbatim from BUF, MD5 word k is the bus word at 0x40 + 4k, and SHA-256 word
k is that bus word with its four bytes reversed. -/
def Obligations.BlockWordsAreBusWords : Prop :=
  ∀ (e : Engine) (w : Word) (k : Fin 16),
    (blockWords e.buf .md5)[k] = e.readReg w (.buf k) ∧
    (blockWords e.buf .sha256)[k] =
      byteOf (e.readReg w (.buf k)) 0 ++ byteOf (e.readReg w (.buf k)) 1 ++ byteOf (e.readReg w (.buf k)) 2 ++
        byteOf (e.readReg w (.buf k)) 3

/-- 42_compression.md R144, bit by bit: Ch gives the bit of f where e is 1 and of g where e is 0, Maj the majority of the
three bits. -/
def Obligations.ChooseAndMajorityBitwise : Prop :=
  (∀ (e f g : Word) (i : Nat), (ch e f g).getLsbD i = if e.getLsbD i then f.getLsbD i else g.getLsbD i) ∧
  (∀ (a b c : Word) (i : Nat), (maj a b c).getLsbD i =
    decide (2 ≤ (a.getLsbD i).toNat + (b.getLsbD i).toNat + (c.getLsbD i).toNat))

/-- The shifts and rotations of 00_scope.md R8, bit by bit, for the amounts it allows. -/
def Obligations.RotationsBitwise : Prop :=
  ∀ (x : Word) (n i : Nat), 1 ≤ n → n ≤ 31 → i < 32 →
    (rotr x n).getLsbD i = x.getLsbD ((i + n) % 32) ∧
    (rotl x n).getLsbD i = x.getLsbD ((i + (32 - n)) % 32) ∧
    (shr x n).getLsbD i = (decide (i + n < 32) && x.getLsbD (i + n))

/-! ### 10_state.md: the status registers, and who writes what -/

/-- 10_state.md R27: the fields of STATUS, its reserved bits 0, and writes to it ignored. -/
def Obligations.StatusWordLayout : Prop :=
  (∀ e : Engine,
    e.statusWord.getLsbD 0 = e.busy ∧ e.statusWord.getLsbD 1 = e.err ∧ e.statusWord.getLsbD 2 = e.digestValid ∧
    (e.statusWord.extractLsb' 4 2).toNat = (match e.drv with | .init => 0 | .reading => 1 | .finished => 2) ∧
    (e.statusWord.extractLsb' 8 2).toNat =
      (match e.padState with | .reading => 0 | .onePadEmitted => 2 | .done => 3) ∧
    e.statusWord.getLsbD 12 = (match e.alg with | .md5 => false | .sha256 => true) ∧
    e.statusWord.getLsbD 3 = false ∧ e.statusWord.extractLsb' 6 2 = 0 ∧ e.statusWord.extractLsb' 10 2 = 0 ∧
    e.statusWord.extractLsb' 13 19 = 0) ∧
  (∀ (s : State) (v : Word), s.writeSelf .status v = .next s)

/-- 10_state.md R34 with the codes of 60_exceptions.md R210: what ERRCODE reads as. -/
def Obligations.ErrCodeWordLayout : Prop :=
  ∀ (e : Engine) (w : Word), (e.readReg w .errcode).toNat =
    match e.errCode with
    | .none => 0
    | .invalidConfiguration => 1
    | .sourceReadError => 2
    | .illegalCommand => 3
    | .badLength => 4
    | .wrongState => 5
    | .busyViolation => 6

/-- DRV's and ALG's transitions (44_driver.md R185, 10_state.md R33): whatever the step, and in every state whose engines
satisfy the invariant, DRV moves only along the table, and ALG changes only by a legal INIT or reset. -/
def Obligations.DriverMovesOnlyAlongTable : Prop :=
  ∀ (s t : State), step s = .next t → ∀ (k : Nat) (e e' : Engine), s.engines[k]? = some e → t.engines[k]? = some e' →
    e.Inv →
    (e'.drv ≠ e.drv →
      (s.NextReset e.page ∧ e'.drv = .init) ∨
      (s.NextLegalInit e.page ∧ e'.drv = .reading) ∨
      ((∃ c a, s.NextWrite e.page 0 c ∧ decode c = .ok (.init a) ∧ 1 < a) ∧ e'.drv = .init) ∨
      (s.NextWrite e.page 0 0x00000004#32 ∧ e.drv = .reading ∧ e'.drv = .init) ∨
      (s.dueEngine = some k ∧ e.drv = .reading ∧ e.padState = .done ∧ (∃ n, e.pend = some (.next n)) ∧
        e'.drv = .finished)) ∧
    (e'.alg ≠ e.alg → s.NextReset e.page ∨ s.NextLegalInit e.page)

/-- 10_state.md R23 and the frame of every step on BUF: a BUF byte changes only by a host write of its word while BUSY = 0,
to the byte of its lane, or by reset; no command writes BUF. -/
def Obligations.BufferWrittenOnlyByHost : Prop :=
  ∀ (s t : State), step s = .next t → ∀ (k : Nat) (e e' : Engine), s.engines[k]? = some e → t.engines[k]? = some e' →
    ∀ j : Fin 64, e'.buf[j] ≠ e.buf[j] →
    s.NextReset e.page ∨
    (e.busy = false ∧ ∃ v, s.NextWrite e.page (0x40 + 4 * (j.val / 4)) v ∧ e'.buf[j] = byteOf v (j.val % 4))

/-- 10_state.md R21: an H word changes only by a legal INIT, reset, a host write of that word while BUSY = 0, or the
completion of a command in flight, which in every state that satisfies the invariant is one accepted in READING: once
FINISHED no command writes H until the next INIT. -/
def Obligations.ChainingStateWrites : Prop :=
  ∀ (s t : State), step s = .next t → ∀ (k : Nat) (e e' : Engine), s.engines[k]? = some e → t.engines[k]? = some e' →
    e.Inv → ∀ i : Fin 8, e'.h[i] ≠ e.h[i] →
    s.NextReset e.page ∨ s.NextLegalInit e.page ∨
    (e.busy = false ∧ ∃ v, s.NextWrite e.page (0x20 + 4 * i.val) v ∧ e'.h[i] = v) ∨
    (s.dueEngine = some k ∧ e.drv = .reading ∧ e.busy = true ∧
      ∃ b, e'.h = compressWords e.alg e.h b ∧ e'.scratch.blk = b)

/-- 43_digest.md R171, 10_state.md R35: DIGEST changes only by the completion of a NEXT in DONE, to the serialization of H, or
by a legal INIT or reset, to zeros. -/
def Obligations.DigestWrittenOnlyByCommitAndInit : Prop :=
  ∀ (s t : State), step s = .next t → ∀ (k : Nat) (e e' : Engine), s.engines[k]? = some e → t.engines[k]? = some e' →
    e'.digest ≠ e.digest →
    ((s.NextLegalInit e.page ∨ s.NextReset e.page) ∧ e'.digest = Vector.replicate 32 0) ∨
    (s.dueEngine = some k ∧ e.padState = .done ∧ (∃ n, e.pend = some (.next n)) ∧ e'.digest = serialize e.h e.alg ∧
      e'.digestValid = true ∧ e'.drv = .finished)

/-! ### 44_driver.md: commands in flight -/

/-- 44_driver.md R195: an accepted NEXT or COMPRESS sets BUSY and PEND, and until it completes none of its inputs can
change, whatever the host does (short of reset). -/
def Obligations.InFlightInputsAreFrozen : Prop :=
  (∀ (s : State) (n : Fin 65), s.Ready → s.self.drv = .reading →
    (∃ t, exec (.next n.val) s = .next t ∧ t.self.busy = true ∧ t.self.pend = some (.next n)) ∧
    (∃ t, exec .compress s = .next t ∧ t.self.busy = true ∧ t.self.pend = some .compress)) ∧
  (∀ (s t : State), step s = .next t → ∀ (k : Nat) (e e' : Engine), s.engines[k]? = some e → t.engines[k]? = some e' →
    e.busy = true → s.dueEngine ≠ some k → ¬ s.NextReset e.page →
    e'.h = e.h ∧ e'.buf = e.buf ∧ e'.bitCount = e.bitCount ∧ e'.padState = e.padState ∧ e'.alg = e.alg ∧
      e'.busy = true ∧ e'.pend = e.pend ∧ e'.drv = e.drv ∧ e'.digest = e.digest)

/-- 44_driver.md R196: a step at which `self`'s completion is due applies the in-flight command's effects, then clears BUSY
and PEND, in one transition; it neither reads nor writes ERR or ERRCODE, and nothing else of the machine changes. -/
def Obligations.CompletionIsOneStep : Prop :=
  ∀ s : State, s.self.due = true →
    (∀ n, s.self.pend = some (.next n) → step s = .next { s with self :=
      { (match s.self.padState with
          | .reading => s.self.nextData n.val
          | .onePadEmitted => s.self.nextPadOnly
          | .done => s.self.digestCommit) with busy := false, pend := none } }) ∧
    (s.self.pend = some .compress → step s = .next { s with self :=
      { s.self.compress s.self.buf with busy := false, pend := none } }) ∧
    (∃ t, step s = .next t ∧ t.self.busy = false ∧ t.self.pend = none ∧ t.self.err = s.self.err ∧
      t.self.errCode = s.self.errCode) ∧
    (∀ (b : Bool) (x : ErrCode),
      { s.self with err := b, errCode := x }.complete = { s.self.complete with err := b, errCode := x })

/-- 70_reset_and_hazards.md R254, 44_driver.md R197: WAIT ends. With no command in flight its first read ends it; with one in
flight, as many polls as its LATENCY leaves, its completion and one more poll end it, and the awaited command's effects
are there. (Stated for a host whose other engines have nothing in flight.) -/
def Obligations.WaitEnds : Prop :=
  ∀ (s : State) (rest : List HostOp), s.self.busy = s.self.pend.isSome → (∀ p ∈ s.peers, p.pend = none) →
    s.queue = .wait s.self.page :: rest →
    (s.self.pend = none → ∃ t, Host.Core.run core 1 s = .next t ∧ t.queue = rest ∧ t.self = s.self ∧
      t.peers = s.peers) ∧
    (s.self.pend ≠ none → ∃ t, Host.Core.run core (s.self.timer + 2) s = .next t ∧ t.queue = rest ∧
      t.self = { s.self with timer := 0 }.complete ∧ t.self.busy = false ∧ t.peers = s.peers)

/-! ### 20_memory.md: the register window -/

/-- 20_memory.md R52: what stands at each aligned offset of the window. -/
def Obligations.WindowMap : Prop :=
  windowReg 0x00 = .cmd ∧ windowReg 0x04 = .status ∧ windowReg 0x08 = .errcode ∧ windowReg 0x0C = .reserved ∧
  windowReg 0x10 = .bitCountLo ∧ windowReg 0x14 = .bitCountHi ∧ windowReg 0x18 = .reserved ∧
  windowReg 0x1C = .reserved ∧
  (∀ i : Fin 8, windowReg (0x20 + 4 * i.val) = .h i) ∧ (∀ k : Fin 16, windowReg (0x40 + 4 * k.val) = .buf k) ∧
  (∀ k : Fin 8, windowReg (0x80 + 4 * k.val) = .digest k) ∧
  (∀ off, 0xA0 ≤ off → windowReg off = .reserved)

/-- 20_memory.md R56 with the lanes of R53: a read with BUSY = 0 gives the register's value, CMD and the reserved offsets 0,
and changes no engine but for the passing of time. -/
def Obligations.IdleReadsGiveRegisterValues : Prop :=
  ∀ (s : State) (off : Nat) (rest : List HostOp), s.dueEngine = none → s.self.busy = false → off < 256 → off % 4 = 0 →
    s.queue = .read (windowAddr s.self.page off) .w32 :: rest →
    ∃ w, step s = .next { s.tick with queue := rest, reads := w :: s.reads } ∧
      match windowReg off with
      | .cmd => w = 0
      | .status => w = s.self.statusWord
      | .errcode => w = s.self.errCodeWord
      | .bitCountLo => w = s.self.bitCount.extractLsb' 0 32
      | .bitCountHi => w = s.self.bitCount.extractLsb' 32 32
      | .h i => w = s.self.h[i]
      | .buf k => ∀ j : Fin 4, byteOf w j.val = s.self.buf[4 * k.val + j.val]
      | .digest k => ∀ j : Fin 4, byteOf w j.val = s.self.digest[4 * k.val + j.val]
      | .reserved => w = 0

/-- 20_memory.md R60: reads with BUSY = 1. STATUS bits 0 and 1, its reserved bits, ERRCODE and BUF are exact; the other STATUS
bits, H, BITCOUNT and DIGEST are the draw's, whatever it is. -/
def Obligations.BusyReads : Prop :=
  ∀ (e : Engine) (w : Word), e.busy = true →
    (∀ i, (e.readReg w .status).getLsbD i =
      if i = 0 then true
      else if i = 1 then e.err
      else if i = 2 ∨ i = 4 ∨ i = 5 ∨ i = 8 ∨ i = 9 ∨ i = 12 then w.getLsbD i
      else false) ∧
    e.readReg w .errcode = { e with busy := false }.readReg w .errcode ∧
    (∀ k, e.readReg w (.buf k) = { e with busy := false }.readReg w (.buf k)) ∧
    (∀ i, e.readReg w (.h i) = w) ∧ e.readReg w .bitCountLo = w ∧ e.readReg w .bitCountHi = w ∧
    (∀ k, e.readReg w (.digest k) = w)

/-- 20_memory.md R57: a write to a read-only register or a reserved offset changes no state, whatever BUSY is. -/
def Obligations.ReadOnlyWritesIgnored : Prop :=
  ∀ (s : State) (v : Word) (r : WindowReg),
    (r = .status ∨ r = .errcode ∨ r = .bitCountLo ∨ r = .bitCountHi ∨ (∃ k, r = .digest k) ∨ r = .reserved) →
    s.writeSelf r v = .next s

/-- 20_memory.md R58 with the lanes of R53: with BUSY = 0 a write of H or BUF takes effect at once, in every driver state and
whether or not an error is recorded; no other byte or register changes, and a read gives the word back. -/
def Obligations.HostWritesTakeEffect : Prop :=
  ∀ (s : State) (v : Word), s.self.busy = false →
    (∀ i : Fin 8, ∃ t, s.writeSelf (.h i) v = .next t ∧
      t = { s with self := { s.self with h := t.self.h } } ∧
      (∀ j : Fin 8, t.self.h[j] = if j = i then v else s.self.h[j]) ∧
      ∀ w, t.self.readReg w (.h i) = v) ∧
    (∀ k : Fin 16, ∃ t, s.writeSelf (.buf k) v = .next t ∧
      t = { s with self := { s.self with buf := t.self.buf } } ∧
      (∀ j : Fin 64, t.self.buf[j] = if j.val / 4 = k.val then byteOf v (j.val % 4) else s.self.buf[j]) ∧
      ∀ w, t.self.readReg w (.buf k) = v)

/-- 20_memory.md R55: an access of another width, or at an offset that is no multiple of 4, is refused. -/
def Obligations.UnperformedAccessRefused : Prop :=
  ∀ (s : State) (addr : Nat) (width : AccessWidth) (v : Word) (rest : List HostOp), s.dueEngine = none →
    (∃ e ∈ s.engines, e.page = pageOf addr) → (width ≠ .w32 ∨ offsetOf addr % 4 ≠ 0) →
    (s.queue = .write addr width v :: rest ∨ s.queue = .read addr width :: rest) →
    step s = .refused .accessNotPerformed

/-- The engine never faults (60_exceptions.md R217, R221): a step faults only when the host addresses no engine's window
(20_memory.md R63), and is refused only when a bus access is not one the window performs (20_memory.md R55). -/
def Obligations.StopsOnlyAtHostAccesses : Prop :=
  ∀ s : State,
    (∀ r, step s = .fault r → s.dueEngine = none ∧ ∃ op page, s.queue.head? = some op ∧
      (op = .wait page ∨ op = .finish page ∨ op = .reset page ∨
        (∃ addr w v, op = .write addr w v ∧ page = pageOf addr) ∨ ∃ addr w, op = .read addr w ∧ page = pageOf addr) ∧
      ∀ e ∈ s.engines, e.page ≠ page) ∧
    (∀ r, step s = .refused r → r = .accessNotPerformed ∧ s.dueEngine = none ∧ ∃ addr w,
      (w ≠ .w32 ∨ offsetOf addr % 4 ≠ 0) ∧
      (s.queue.head? = some (.read addr w) ∨ ∃ v, s.queue.head? = some (.write addr w v)))

/-! ### 70_reset_and_hazards.md and 60_exceptions.md: reset, idling, several engines -/

/-- The values 10_state.md R40 gives for reset (H, BUF and the hidden storage, which it leaves open, are not stated). -/
def Obligations.ResetStateValues : Prop :=
  State.reset.self.bitCount = 0 ∧ State.reset.self.busy = false ∧ State.reset.self.pend = none ∧
    State.reset.self.err = false ∧ State.reset.self.digestValid = false ∧ State.reset.self.drv = .init ∧
    State.reset.self.padState = .reading ∧ State.reset.self.alg = .md5 ∧ State.reset.self.errCode = .none ∧
    State.reset.self.digest = Vector.replicate 32 0 ∧ State.reset.self.statusWord = 0x00000000#32

/-- 70_reset_and_hazards.md R240: the reset signal to `self`, at any time, discards the command in flight and leaves the
reset values; H, BUF and the hidden storage are draws; no other engine is affected. -/
def Obligations.ResetEventLeavesResetValues : Prop :=
  ∀ (s : State) (rest : List HostOp), s.dueEngine = none → s.queue = .reset s.self.page :: rest →
    ∃ t, step s = .next t ∧ t.queue = rest ∧ t.reads = s.reads ∧ t.peers = s.tick.peers ∧
      t.self.pend = none ∧ t.self.busy = false ∧ t.self.err = false ∧ t.self.errCode = .none ∧
      t.self.digestValid = false ∧ t.self.drv = .init ∧ t.self.padState = .reading ∧ t.self.alg = .md5 ∧
      t.self.bitCount = 0 ∧ t.self.digest = Vector.replicate 32 0 ∧
      (∀ i : Fin 8, t.self.h[i] = Config.freeWord (s.draws + i.val)) ∧
      (∀ j : Fin 64, t.self.buf[j] = Config.freeByte (s.draws + j.val)) ∧
      t.self.scratch = resetScratch s.draws ∧ t.draws = s.draws + resetDraws ∧
      t.self.page = s.self.page ∧ t.self.latencies = s.self.latencies

/-- 70_reset_and_hazards.md R241: after reset the engine waits for host accesses, and NEXT, COMPRESS and ABORT before an INIT
record WRONG_STATE. -/
def Obligations.AfterResetOnlyInitStarts : Prop :=
  step State.reset = .next State.reset ∧
  (∀ i : Instr, (i = .compress ∨ i = .abort ∨ ∃ n, n ≤ 64 ∧ i = .next n) →
    exec i State.reset = .next { State.reset with self :=
      { State.reset.self with err := true, errCode := .wrongState } })

/-- 60_exceptions.md R229: with nothing in flight and no host operation, a step keeps the whole state. -/
def Obligations.IdleMachineKeepsState : Prop :=
  ∀ s : State, s.queue = [] → (∀ e ∈ s.engines, e.pend = none) → step s = .next s

/-- 60_exceptions.md R227: no access to one engine changes another. A completion changes no other engine, and a host
operation changes no engine at another page but for the passing of time. -/
def Obligations.EnginesAreIsolated : Prop :=
  ∀ (s t : State), step s = .next t → ∀ (k : Nat) (e e' : Engine), s.engines[k]? = some e → t.engines[k]? = some e' →
    (∀ j, s.dueEngine = some j → j ≠ k → e' = e) ∧
    (s.dueEngine = none → (∀ addr w v, s.queue.head? = some (.write addr w v) → pageOf addr ≠ e.page) →
      (s.queue.head? ≠ some (.reset e.page)) → e' = e.tick)

/-- 10_state.md R24, R25: the hidden storage holds nothing a later command reads. Two machines that differ only in it step
to machines that differ only in it, with the same outcome. -/
def Obligations.HiddenStorageIsUnobservable : Prop :=
  ∀ s u : State, s.hide = u.hide → onNext State.hide (step s) = onNext State.hide (step u)

/-! ### The step, and the invariant -/

/-- A step runs the decoded command (44_driver.md R180): when no completion is due and the host's next operation is the write
of a word that decodes to `i` to `self`'s CMD, the step is `exec i`, with the operation taken and time passed. -/
def Obligations.StepRunsDecodedCommand : Prop :=
  ∀ (s : State) (c : Word) (rest : List HostOp) (i : Instr), s.dueEngine = none →
    s.queue = cmdWrite s.self.page c :: rest → decode c = .ok i →
    step s = exec i { s.tick with queue := rest }

/-- A command placed by `withFetchWord` is the very next thing that runs (log entry 1: the model's own convention). -/
def Obligations.PlacedCommandRunsNext : Prop :=
  ∀ (s : State) (nbits w : Nat) (i : Instr), decodeTableWord nbits w = some i →
    step (s.withFetchWord nbits w) = exec i { s.holdOff.tick with queue := s.queue }

/-- **Headline.** Every step keeps the invariant: in every engine, ERRCODE agrees with ERR, BUSY with PEND, DIGEST_VALID
with FINISHED, a command in flight was accepted in READING, BITCOUNT is a multiple of 8, and the rest of
`Engine.Inv`; and the windows stay apart. -/
def Obligations.StepKeepsInvariant : Prop :=
  ∀ s t : State, s.Inv → step s = .next t → t.Inv

/-- The invariant holds at reset. -/
def Obligations.ResetSatisfiesInvariant : Prop := State.reset.Inv
end

