-- ==== Sys2Proof/Laws/Bytes.lean ====
section
/-! SUPPORT. Byte packing: bytes of a packed word, words from their bytes, and a block built from a byte list. -/

namespace Sys2Proof.Machine

theorem bytesOf_getElem (n : Nat) (l : List Byte) (i : Nat) (h : i < n) : (bytesOf n l)[i] = l.getD i 0 := by
  simp [bytesOf]

theorem byteOf_getLsbD {w : Nat} (v : BitVec w) (j i : Nat) :
    (byteOf v j).getLsbD i = (decide (i < 8) && v.getLsbD (8 * j + i)) := by
  simp [byteOf]

/-- The bits of a packed word: bits `8j+7 : 8j` are byte `j`. -/
theorem le32_getLsbD (b0 b1 b2 b3 : Byte) (i : Nat) :
    (le32 b0 b1 b2 b3).getLsbD i =
      if i < 8 then b0.getLsbD i else if i < 16 then b1.getLsbD (i - 8)
      else if i < 24 then b2.getLsbD (i - 16) else if i < 32 then b3.getLsbD (i - 24) else false := by
  simp only [le32, BitVec.getLsbD_or, BitVec.getLsbD_shiftLeft, BitVec.getLsbD_setWidth]
  have z0 := fun h => BitVec.getLsbD_of_ge b0 i h
  have z1 := fun h => BitVec.getLsbD_of_ge b1 (i - 8) h
  have z2 := fun h => BitVec.getLsbD_of_ge b2 (i - 16) h
  split_ifs with h0 h1 h2 h3
  · simp [h0, show i < 16 by omega, show i < 24 by omega, show i < 32 by omega]
  · simp [h0, h1, show i < 24 by omega, show i < 32 by omega, show i - 8 < 32 by omega, z0 (by omega)]
  · simp [h0, h1, h2, show i < 32 by omega, show i - 16 < 32 by omega, z0 (by omega), z1 (by omega)]
  · simp [h0, h1, h2, h3, show i - 24 < 32 by omega, z0 (by omega), z1 (by omega), z2 (by omega)]
  · simp [h3]

/-- `le32` as a concatenation, most significant byte first. -/
theorem le32_eq_append (b0 b1 b2 b3 : Byte) : le32 b0 b1 b2 b3 = b3 ++ b2 ++ b1 ++ b0 := by
  apply BitVec.eq_of_getLsbD_eq
  intro i hi
  simp only [le32_getLsbD, BitVec.getLsbD_append]
  split_ifs <;> first | rfl | omega

/-- `be32` as a concatenation, most significant byte first. -/
theorem be32_eq_append (b0 b1 b2 b3 : Byte) : be32 b0 b1 b2 b3 = b0 ++ b1 ++ b2 ++ b3 := by
  rw [← le32_eq_append]
  simp only [be32, le32]

/-- The byte of each lane of a packed word. -/
theorem byteOf_le32 (b0 b1 b2 b3 : Byte) (j : Nat) (h : j < 4) :
    byteOf (le32 b0 b1 b2 b3) j = [b0, b1, b2, b3].getD j 0 := by
  apply BitVec.eq_of_getLsbD_eq
  intro i hi
  rw [byteOf_getLsbD, le32_getLsbD]
  have hj : j = 0 ∨ j = 1 ∨ j = 2 ∨ j = 3 := by omega
  rcases hj with rfl | rfl | rfl | rfl
  · simp [hi]
  · simp [hi, show 8 + i < 16 by omega]
  · simp [hi, show 16 + i < 24 by omega, show ¬ 16 + i < 8 by omega]
  · simp [hi, show 24 + i < 32 by omega, show ¬ 24 + i < 8 by omega, show ¬ 24 + i < 16 by omega]

/-- A word packed from its own bytes. -/
theorem le32_byteOf (w : Word) : le32 (byteOf w 0) (byteOf w 1) (byteOf w 2) (byteOf w 3) = w := by
  apply BitVec.eq_of_getLsbD_eq
  intro i hi
  simp only [le32_getLsbD, byteOf_getLsbD]
  split_ifs with h0 h1 h2
  · simp [h0]
  · simp [show i - 8 < 8 by omega, show 8 + (i - 8) = i by omega]
  · simp [show i - 16 < 8 by omega, show 16 + (i - 16) = i by omega]
  · simp [show i - 24 < 8 by omega, show 24 + (i - 24) = i by omega]

@[simp] theorem zeros_length (k : Nat) : (zeros k).length = k := by simp [zeros]
@[simp] theorem be32bytes_length (w : Word) : (be32bytes w).length = 4 := rfl
@[simp] theorem le32bytes_length (w : Word) : (le32bytes w).length = 4 := rfl
@[simp] theorem be64bytes_length (v : BitVec 64) : (be64bytes v).length = 8 := rfl
@[simp] theorem le64bytes_length (v : BitVec 64) : (le64bytes v).length = 8 := rfl

end Sys2Proof.Machine
end

