-- ==== Sys2Proof/Laws/Compression.lean ====
section
/-! SUPPORT. The rotations, the message schedule and the register file after a compression. -/

namespace Sys2Proof.Machine

theorem rotr_eq_rotateRight (x : Word) (n : Nat) (h : n < 32) : rotr x n = x.rotateRight n := by
  simp [rotr, BitVec.rotateRight, BitVec.rotateRightAux, Nat.mod_eq_of_lt h]

theorem rotl_eq_rotateLeft (x : Word) (n : Nat) (h : n < 32) : rotl x n = x.rotateLeft n := by
  simp [rotl, BitVec.rotateLeft, BitVec.rotateLeftAux, Nat.mod_eq_of_lt h]

/-! ### The message schedule -/

theorem scheduleExtend_length (k : Nat) (W : List Word) : (scheduleExtend k W).length = W.length + k := by
  induction k generalizing W with
  | zero => rfl
  | succ k ih => simp [scheduleExtend, ih]; omega

/-- Further schedule words change none that are there. -/
theorem scheduleExtend_getD_of_lt (k : Nat) (W : List Word) (t : Nat) (h : t < W.length) :
    (scheduleExtend k W).getD t 0 = W.getD t 0 := by
  induction k generalizing W with
  | zero => rfl
  | succ k ih =>
    rw [scheduleExtend, ih _ (by simp; omega)]
    simp [List.getD_eq_getElem?_getD, List.getElem?_append_left h]

/-- Each schedule word from the first extended one on is the recurrence of the words before it. -/
theorem scheduleExtend_getD (k : Nat) (W : List Word) (hW : 16 ≤ W.length) (t : Nat) (h : W.length ≤ t)
    (h' : t < W.length + k) :
    let V := scheduleExtend k W
    V.getD t 0 = smallSigma1 (V.getD (t - 2) 0) + V.getD (t - 7) 0 + smallSigma0 (V.getD (t - 15) 0) +
      V.getD (t - 16) 0 := by
  induction k generalizing W with
  | zero => omega
  | succ k ih =>
    simp only [scheduleExtend]
    by_cases ht : t = W.length
    · subst ht
      have keep : ∀ j, j < W.length → (scheduleExtend k (W ++ [scheduleNext W])).getD j 0 = W.getD j 0 := by
        intro j hj
        rw [scheduleExtend_getD_of_lt _ _ _ (by simp; omega)]
        simp [List.getD_eq_getElem?_getD, List.getElem?_append_left hj]
      rw [scheduleExtend_getD_of_lt _ _ _ (by simp), keep _ (by omega), keep _ (by omega), keep _ (by omega),
        keep _ (by omega)]
      simp [scheduleNext]
    · exact ih _ (by simp; omega) (by simp; omega) (by simp; omega)

theorem shaBlockSchedule_length (blk : Vector Byte 64) : (shaBlockSchedule blk).length = 64 := by
  simp [shaBlockSchedule, shaSchedule, scheduleExtend_length]

/-- The first 16 schedule words are the block words. -/
theorem shaBlockSchedule_block (blk : Vector Byte 64) (t : Nat) (h : t < 16) :
    (shaBlockSchedule blk).getD t 0 = (blockWords blk .sha256)[t] := by
  rw [shaBlockSchedule, shaSchedule, scheduleExtend_getD_of_lt _ _ _ (by simpa using h)]
  simp [List.getD_eq_getElem?_getD, h]

/-! ### The register file -/

theorem compressWords_md5_upper (h : Vector Word 8) (b : Vector Byte 64) (k : Nat) (hk : k < 8) (h4 : 4 ≤ k) :
    (compressWords .md5 h b)[k] = h[k] := by
  have : k = 4 ∨ k = 5 ∨ k = 6 ∨ k = 7 := by omega
  rcases this with rfl | rfl | rfl | rfl <;> rfl

theorem compressScratch_blk (a : Alg) (h : Vector Word 8) (b : Vector Byte 64) (x : Scratch) :
    (compressScratch a h b x).blk = b := by
  cases a <;> rfl

end Sys2Proof.Machine
end

