-- ==== Sys2Proof/Laws/Decode.lean ====
section
/-! SUPPORT. The decoder and the encoder in numbers: the fields of a word and the word of a command, as arithmetic on
`toNat`. -/

namespace Sys2Proof

theorem opField_eq (c : Word) : opField c = c.toNat % 16 := by
  simp [opField, BitVec.extractLsb'_toNat]

theorem algField_eq (c : Word) : algField c = c.toNat / 16 % 16 := by
  simp [algField, BitVec.extractLsb'_toNat, Nat.shiftRight_eq_div_pow]

theorem countField_eq (c : Word) : countField c = c.toNat / 256 % 128 := by
  simp [countField, BitVec.extractLsb'_toNat, Nat.shiftRight_eq_div_pow]

theorem algField_lt (c : Word) : algField c < 16 := by rw [algField_eq]; omega

theorem countField_lt (c : Word) : countField c < 128 := by rw [countField_eq]; omega

/-- A slice is zero when the number it holds is. -/
theorem slice_eq_zero_iff (c : Word) (s n : Nat) : c.extractLsb' s n = 0 ↔ c.toNat / 2 ^ s % 2 ^ n = 0 := by
  rw [← BitVec.toNat_inj]
  simp [BitVec.extractLsb'_toNat, Nat.shiftRight_eq_div_pow]

theorem encode_init_toNat {alg : Nat} (h : alg < 16) : (encode (.init alg)).toNat = 16 * alg + 1 := by
  have : ∀ a : Fin 16, (encode (.init a.val)).toNat = 16 * a.val + 1 := by decide
  exact this ⟨alg, h⟩

theorem encode_next_toNat {n : Nat} (h : n < 128) : (encode (.next n)).toNat = 256 * n + 2 := by
  have : ∀ a : Fin 128, (encode (.next a.val)).toNat = 256 * a.val + 2 := by decide
  exact this ⟨n, h⟩

/-- Reading a word back from its bytes in bus order. -/
theorem decodeBytes_le32bytes (c : Word) (rest : List Byte) :
    decodeBytes (Machine.le32bytes c ++ rest) =
      match decode c with
      | .ok i => .ok (i, rest)
      | .error e => .error e := by
  cases h : decode c <;> simp [Machine.le32bytes, decodeBytes, Machine.le32_byteOf, h]

/-- The decoder on an opcode-table word is `decode` on its low `nbits` bits. -/
theorem decodeTableWord_eq (nbits w : Nat) :
    decodeTableWord nbits w =
      match decode (BitVec.ofNat 32 (w % 2 ^ nbits)) with
      | .ok i => some i
      | .error _ => none := by
  have h := decodeBytes_le32bytes (BitVec.ofNat 32 (w % 2 ^ nbits)) []
  rw [List.append_nil] at h
  rw [decodeTableWord, h]
  cases decode (BitVec.ofNat 32 (w % 2 ^ nbits)) <;> rfl

/-- What a word is, in numbers: the word of one of the five commands, or an illegal encoding. -/
theorem decode_cases (c : Word) :
    (c = 0 ∧ decode c = .ok .nop) ∨
    (c.toNat % 16 = 1 ∧ c.toNat / 256 = 0 ∧ decode c = .ok (.init (algField c))) ∨
    (c.toNat % 256 = 2 ∧ c.toNat / 2 ^ 15 = 0 ∧ decode c = .ok (.next (countField c))) ∨
    (c = 3 ∧ decode c = .ok .compress) ∨ (c = 4 ∧ decode c = .ok .abort) ∨
    (Machine.illegalWord c ∧ ∃ x, decode c = .error x) := by
  have hlt := c.isLt
  by_cases h0 : opField c = 0
  · by_cases hc : c = 0
    · exact .inl ⟨hc, by rw [hc]; rfl⟩
    · iterate 5 right
      exact ⟨.inr (.inl ⟨h0, hc⟩), .nopBitsSet, by simp only [decode, h0, if_neg hc]⟩
  by_cases h1 : opField c = 1
  · by_cases hc : c.extractLsb' 8 24 = 0
    · right; left
      have := (slice_eq_zero_iff c 8 24).mp hc
      refine ⟨by rw [← opField_eq]; exact h1, by omega, by simp only [decode, h1, if_pos hc]⟩
    · iterate 5 right
      exact ⟨.inr (.inr (.inl ⟨h1, hc⟩)), .initBitsSet, by simp only [decode, h1, if_neg hc]⟩
  by_cases h2 : opField c = 2
  · by_cases hc : c.extractLsb' 4 4 = 0 ∧ c.extractLsb' 15 17 = 0
    · right; right; left
      have a1 := (slice_eq_zero_iff c 4 4).mp hc.1
      have a2 := (slice_eq_zero_iff c 15 17).mp hc.2
      have h2' := h2
      rw [opField_eq] at h2'
      exact ⟨by omega, by omega, by simp only [decode, h2, if_pos hc]⟩
    · iterate 5 right
      exact ⟨.inr (.inr (.inr (.inl ⟨h2, not_and_or.mp hc⟩))), .nextBitsSet, by simp only [decode, h2, if_neg hc]⟩
  by_cases h3 : opField c = 3
  · by_cases hc : c.extractLsb' 4 28 = 0
    · right; right; right; left
      have := (slice_eq_zero_iff c 4 28).mp hc
      have h3' := h3
      rw [opField_eq] at h3'
      exact ⟨BitVec.eq_of_toNat_eq (by simp; omega), by simp only [decode, h3, if_pos hc]⟩
    · iterate 5 right
      exact ⟨.inr (.inr (.inr (.inr ⟨.inl h3, hc⟩))), .compressBitsSet, by simp only [decode, h3, if_neg hc]⟩
  by_cases h4 : opField c = 4
  · by_cases hc : c.extractLsb' 4 28 = 0
    · right; right; right; right; left
      have := (slice_eq_zero_iff c 4 28).mp hc
      have h4' := h4
      rw [opField_eq] at h4'
      exact ⟨BitVec.eq_of_toNat_eq (by simp; omega), by simp only [decode, h4, if_pos hc]⟩
    · iterate 5 right
      exact ⟨.inr (.inr (.inr (.inr ⟨.inr h4, hc⟩))), .abortBitsSet, by simp only [decode, h4, if_neg hc]⟩
  · iterate 5 right
    refine ⟨.inl (by omega), .reservedOpcode (opField c), ?_⟩
    unfold decode
    split <;> first | contradiction | rfl

end Sys2Proof
end

