-- ==== Sys2Proof/Laws/Digest.lean ====
section
/-! SUPPORT. The serializer: it fills its 32 bytes, and each of them (43_digest.md R170). -/

namespace Sys2Proof.Machine

theorem serializeBytes_length (h : Vector Word 8) (alg : Alg) : (serializeBytes h alg).length = 32 := by
  cases alg <;> simp [serializeBytes]

theorem serialize_getElem (h : Vector Word 8) (alg : Alg) (j : Nat) (hj : j < 32) :
    (serialize h alg)[j] = (serializeBytes h alg).getD j 0 := bytesOf_getElem 32 _ j hj

theorem serialize_toList (h : Vector Word 8) (alg : Alg) : (serialize h alg).toList = serializeBytes h alg := by
  apply List.ext_getElem
  · simp [serializeBytes_length]
  · intro j h1 h2
    simp only [Vector.getElem_toList, serialize_getElem]
    rw [List.getD_eq_getElem?_getD, List.getElem?_eq_getElem h2]; rfl

/-- The zero fill of an MD5 digest. -/
theorem serialize_md5_tail (h : Vector Word 8) : (serialize h .md5).toList.drop 16 = zeros 16 := by
  rw [serialize_toList]; rfl

end Sys2Proof.Machine
end

