-- ==== Sys2Proof/Laws/State.lean ====
section
/-! SUPPORT. One lemma per field per update of an engine, true by rfl, so that no later proof unfolds a record update. -/

namespace Sys2Proof.Machine

/-! ### raiseError -/

@[simp] theorem Engine.raiseError_h (c : ErrCode) (e : Engine) : (e.raiseError c).h = e.h := rfl
@[simp] theorem Engine.raiseError_buf (c : ErrCode) (e : Engine) : (e.raiseError c).buf = e.buf := rfl
@[simp] theorem Engine.raiseError_bitCount (c : ErrCode) (e : Engine) : (e.raiseError c).bitCount = e.bitCount := rfl
@[simp] theorem Engine.raiseError_padState (c : ErrCode) (e : Engine) : (e.raiseError c).padState = e.padState := rfl
@[simp] theorem Engine.raiseError_drv (c : ErrCode) (e : Engine) : (e.raiseError c).drv = e.drv := rfl
@[simp] theorem Engine.raiseError_alg (c : ErrCode) (e : Engine) : (e.raiseError c).alg = e.alg := rfl
@[simp] theorem Engine.raiseError_busy (c : ErrCode) (e : Engine) : (e.raiseError c).busy = e.busy := rfl
@[simp] theorem Engine.raiseError_err (c : ErrCode) (e : Engine) : (e.raiseError c).err = true := rfl
@[simp] theorem Engine.raiseError_digestValid (c : ErrCode) (e : Engine) : (e.raiseError c).digestValid = e.digestValid := rfl
@[simp] theorem Engine.raiseError_errCode (c : ErrCode) (e : Engine) : (e.raiseError c).errCode = c := rfl
@[simp] theorem Engine.raiseError_digest (c : ErrCode) (e : Engine) : (e.raiseError c).digest = e.digest := rfl
@[simp] theorem Engine.raiseError_pend (c : ErrCode) (e : Engine) : (e.raiseError c).pend = e.pend := rfl
@[simp] theorem Engine.raiseError_scratch (c : ErrCode) (e : Engine) : (e.raiseError c).scratch = e.scratch := rfl
@[simp] theorem Engine.raiseError_page (c : ErrCode) (e : Engine) : (e.raiseError c).page = e.page := rfl
@[simp] theorem Engine.raiseError_timer (c : ErrCode) (e : Engine) : (e.raiseError c).timer = e.timer := rfl
@[simp] theorem Engine.raiseError_latencies (c : ErrCode) (e : Engine) : (e.raiseError c).latencies = e.latencies := rfl

/-! ### clearError -/

@[simp] theorem Engine.clearError_h (e : Engine) : e.clearError.h = e.h := rfl
@[simp] theorem Engine.clearError_buf (e : Engine) : e.clearError.buf = e.buf := rfl
@[simp] theorem Engine.clearError_bitCount (e : Engine) : e.clearError.bitCount = e.bitCount := rfl
@[simp] theorem Engine.clearError_padState (e : Engine) : e.clearError.padState = e.padState := rfl
@[simp] theorem Engine.clearError_drv (e : Engine) : e.clearError.drv = e.drv := rfl
@[simp] theorem Engine.clearError_alg (e : Engine) : e.clearError.alg = e.alg := rfl
@[simp] theorem Engine.clearError_busy (e : Engine) : e.clearError.busy = e.busy := rfl
@[simp] theorem Engine.clearError_err (e : Engine) : e.clearError.err = false := rfl
@[simp] theorem Engine.clearError_digestValid (e : Engine) : e.clearError.digestValid = e.digestValid := rfl
@[simp] theorem Engine.clearError_errCode (e : Engine) : e.clearError.errCode = .none := rfl
@[simp] theorem Engine.clearError_digest (e : Engine) : e.clearError.digest = e.digest := rfl
@[simp] theorem Engine.clearError_pend (e : Engine) : e.clearError.pend = e.pend := rfl
@[simp] theorem Engine.clearError_scratch (e : Engine) : e.clearError.scratch = e.scratch := rfl
@[simp] theorem Engine.clearError_page (e : Engine) : e.clearError.page = e.page := rfl
@[simp] theorem Engine.clearError_timer (e : Engine) : e.clearError.timer = e.timer := rfl
@[simp] theorem Engine.clearError_latencies (e : Engine) : e.clearError.latencies = e.latencies := rfl

/-! ### accept -/

@[simp] theorem Engine.accept_h (c : InFlight) (e : Engine) : (e.accept c).h = e.h := rfl
@[simp] theorem Engine.accept_buf (c : InFlight) (e : Engine) : (e.accept c).buf = e.buf := rfl
@[simp] theorem Engine.accept_bitCount (c : InFlight) (e : Engine) : (e.accept c).bitCount = e.bitCount := rfl
@[simp] theorem Engine.accept_padState (c : InFlight) (e : Engine) : (e.accept c).padState = e.padState := rfl
@[simp] theorem Engine.accept_drv (c : InFlight) (e : Engine) : (e.accept c).drv = e.drv := rfl
@[simp] theorem Engine.accept_alg (c : InFlight) (e : Engine) : (e.accept c).alg = e.alg := rfl
@[simp] theorem Engine.accept_busy (c : InFlight) (e : Engine) : (e.accept c).busy = true := rfl
@[simp] theorem Engine.accept_err (c : InFlight) (e : Engine) : (e.accept c).err = e.err := rfl
@[simp] theorem Engine.accept_digestValid (c : InFlight) (e : Engine) : (e.accept c).digestValid = e.digestValid := rfl
@[simp] theorem Engine.accept_errCode (c : InFlight) (e : Engine) : (e.accept c).errCode = e.errCode := rfl
@[simp] theorem Engine.accept_digest (c : InFlight) (e : Engine) : (e.accept c).digest = e.digest := rfl
@[simp] theorem Engine.accept_pend (c : InFlight) (e : Engine) : (e.accept c).pend = some c := rfl
@[simp] theorem Engine.accept_scratch (c : InFlight) (e : Engine) : (e.accept c).scratch = e.scratch := rfl
@[simp] theorem Engine.accept_page (c : InFlight) (e : Engine) : (e.accept c).page = e.page := rfl
@[simp] theorem Engine.accept_timer (c : InFlight) (e : Engine) : (e.accept c).timer = e.latencies.headD 0 := rfl
@[simp] theorem Engine.accept_latencies (c : InFlight) (e : Engine) : (e.accept c).latencies = e.latencies.tail := rfl

/-! ### retire -/

@[simp] theorem Engine.retire_h (e : Engine) : e.retire.h = e.h := rfl
@[simp] theorem Engine.retire_buf (e : Engine) : e.retire.buf = e.buf := rfl
@[simp] theorem Engine.retire_bitCount (e : Engine) : e.retire.bitCount = e.bitCount := rfl
@[simp] theorem Engine.retire_padState (e : Engine) : e.retire.padState = e.padState := rfl
@[simp] theorem Engine.retire_drv (e : Engine) : e.retire.drv = e.drv := rfl
@[simp] theorem Engine.retire_alg (e : Engine) : e.retire.alg = e.alg := rfl
@[simp] theorem Engine.retire_busy (e : Engine) : e.retire.busy = false := rfl
@[simp] theorem Engine.retire_err (e : Engine) : e.retire.err = e.err := rfl
@[simp] theorem Engine.retire_digestValid (e : Engine) : e.retire.digestValid = e.digestValid := rfl
@[simp] theorem Engine.retire_errCode (e : Engine) : e.retire.errCode = e.errCode := rfl
@[simp] theorem Engine.retire_digest (e : Engine) : e.retire.digest = e.digest := rfl
@[simp] theorem Engine.retire_pend (e : Engine) : e.retire.pend = none := rfl
@[simp] theorem Engine.retire_scratch (e : Engine) : e.retire.scratch = e.scratch := rfl
@[simp] theorem Engine.retire_page (e : Engine) : e.retire.page = e.page := rfl
@[simp] theorem Engine.retire_timer (e : Engine) : e.retire.timer = e.timer := rfl
@[simp] theorem Engine.retire_latencies (e : Engine) : e.retire.latencies = e.latencies := rfl

/-! ### compress -/

@[simp] theorem Engine.compress_h (b : Vector Byte 64) (e : Engine) : (e.compress b).h = compressWords e.alg e.h b := rfl
@[simp] theorem Engine.compress_buf (b : Vector Byte 64) (e : Engine) : (e.compress b).buf = e.buf := rfl
@[simp] theorem Engine.compress_bitCount (b : Vector Byte 64) (e : Engine) : (e.compress b).bitCount = e.bitCount := rfl
@[simp] theorem Engine.compress_padState (b : Vector Byte 64) (e : Engine) : (e.compress b).padState = e.padState := rfl
@[simp] theorem Engine.compress_drv (b : Vector Byte 64) (e : Engine) : (e.compress b).drv = e.drv := rfl
@[simp] theorem Engine.compress_alg (b : Vector Byte 64) (e : Engine) : (e.compress b).alg = e.alg := rfl
@[simp] theorem Engine.compress_busy (b : Vector Byte 64) (e : Engine) : (e.compress b).busy = e.busy := rfl
@[simp] theorem Engine.compress_err (b : Vector Byte 64) (e : Engine) : (e.compress b).err = e.err := rfl
@[simp] theorem Engine.compress_digestValid (b : Vector Byte 64) (e : Engine) : (e.compress b).digestValid = e.digestValid := rfl
@[simp] theorem Engine.compress_errCode (b : Vector Byte 64) (e : Engine) : (e.compress b).errCode = e.errCode := rfl
@[simp] theorem Engine.compress_digest (b : Vector Byte 64) (e : Engine) : (e.compress b).digest = e.digest := rfl
@[simp] theorem Engine.compress_pend (b : Vector Byte 64) (e : Engine) : (e.compress b).pend = e.pend := rfl
@[simp] theorem Engine.compress_scratch (b : Vector Byte 64) (e : Engine) : (e.compress b).scratch = compressScratch e.alg e.h b e.scratch := rfl
@[simp] theorem Engine.compress_page (b : Vector Byte 64) (e : Engine) : (e.compress b).page = e.page := rfl
@[simp] theorem Engine.compress_timer (b : Vector Byte 64) (e : Engine) : (e.compress b).timer = e.timer := rfl
@[simp] theorem Engine.compress_latencies (b : Vector Byte 64) (e : Engine) : (e.compress b).latencies = e.latencies := rfl

/-! ### initLegal -/

@[simp] theorem Engine.initLegal_h (a : Alg) (e : Engine) : (e.initLegal a).h = initialWords a := rfl
@[simp] theorem Engine.initLegal_buf (a : Alg) (e : Engine) : (e.initLegal a).buf = e.buf := rfl
@[simp] theorem Engine.initLegal_bitCount (a : Alg) (e : Engine) : (e.initLegal a).bitCount = 0 := rfl
@[simp] theorem Engine.initLegal_padState (a : Alg) (e : Engine) : (e.initLegal a).padState = .reading := rfl
@[simp] theorem Engine.initLegal_drv (a : Alg) (e : Engine) : (e.initLegal a).drv = .reading := rfl
@[simp] theorem Engine.initLegal_alg (a : Alg) (e : Engine) : (e.initLegal a).alg = a := rfl
@[simp] theorem Engine.initLegal_busy (a : Alg) (e : Engine) : (e.initLegal a).busy = e.busy := rfl
@[simp] theorem Engine.initLegal_err (a : Alg) (e : Engine) : (e.initLegal a).err = false := rfl
@[simp] theorem Engine.initLegal_digestValid (a : Alg) (e : Engine) : (e.initLegal a).digestValid = false := rfl
@[simp] theorem Engine.initLegal_errCode (a : Alg) (e : Engine) : (e.initLegal a).errCode = .none := rfl
@[simp] theorem Engine.initLegal_digest (a : Alg) (e : Engine) : (e.initLegal a).digest = Vector.replicate 32 0 := rfl
@[simp] theorem Engine.initLegal_pend (a : Alg) (e : Engine) : (e.initLegal a).pend = e.pend := rfl
@[simp] theorem Engine.initLegal_scratch (a : Alg) (e : Engine) : (e.initLegal a).scratch = e.scratch := rfl
@[simp] theorem Engine.initLegal_page (a : Alg) (e : Engine) : (e.initLegal a).page = e.page := rfl
@[simp] theorem Engine.initLegal_timer (a : Alg) (e : Engine) : (e.initLegal a).timer = e.timer := rfl
@[simp] theorem Engine.initLegal_latencies (a : Alg) (e : Engine) : (e.initLegal a).latencies = e.latencies := rfl

/-! ### initFail -/

@[simp] theorem Engine.initFail_h (e : Engine) : e.initFail.h = e.h := rfl
@[simp] theorem Engine.initFail_buf (e : Engine) : e.initFail.buf = e.buf := rfl
@[simp] theorem Engine.initFail_bitCount (e : Engine) : e.initFail.bitCount = e.bitCount := rfl
@[simp] theorem Engine.initFail_padState (e : Engine) : e.initFail.padState = e.padState := rfl
@[simp] theorem Engine.initFail_drv (e : Engine) : e.initFail.drv = .init := rfl
@[simp] theorem Engine.initFail_alg (e : Engine) : e.initFail.alg = e.alg := rfl
@[simp] theorem Engine.initFail_busy (e : Engine) : e.initFail.busy = e.busy := rfl
@[simp] theorem Engine.initFail_err (e : Engine) : e.initFail.err = true := rfl
@[simp] theorem Engine.initFail_digestValid (e : Engine) : e.initFail.digestValid = false := rfl
@[simp] theorem Engine.initFail_errCode (e : Engine) : e.initFail.errCode = .invalidConfiguration := rfl
@[simp] theorem Engine.initFail_digest (e : Engine) : e.initFail.digest = e.digest := rfl
@[simp] theorem Engine.initFail_pend (e : Engine) : e.initFail.pend = e.pend := rfl
@[simp] theorem Engine.initFail_scratch (e : Engine) : e.initFail.scratch = e.scratch := rfl
@[simp] theorem Engine.initFail_page (e : Engine) : e.initFail.page = e.page := rfl
@[simp] theorem Engine.initFail_timer (e : Engine) : e.initFail.timer = e.timer := rfl
@[simp] theorem Engine.initFail_latencies (e : Engine) : e.initFail.latencies = e.latencies := rfl

/-! ### abortReading -/

@[simp] theorem Engine.abortReading_h (e : Engine) : e.abortReading.h = e.h := rfl
@[simp] theorem Engine.abortReading_buf (e : Engine) : e.abortReading.buf = e.buf := rfl
@[simp] theorem Engine.abortReading_bitCount (e : Engine) : e.abortReading.bitCount = e.bitCount := rfl
@[simp] theorem Engine.abortReading_padState (e : Engine) : e.abortReading.padState = e.padState := rfl
@[simp] theorem Engine.abortReading_drv (e : Engine) : e.abortReading.drv = .init := rfl
@[simp] theorem Engine.abortReading_alg (e : Engine) : e.abortReading.alg = e.alg := rfl
@[simp] theorem Engine.abortReading_busy (e : Engine) : e.abortReading.busy = e.busy := rfl
@[simp] theorem Engine.abortReading_err (e : Engine) : e.abortReading.err = true := rfl
@[simp] theorem Engine.abortReading_digestValid (e : Engine) : e.abortReading.digestValid = false := rfl
@[simp] theorem Engine.abortReading_errCode (e : Engine) : e.abortReading.errCode = .sourceReadError := rfl
@[simp] theorem Engine.abortReading_digest (e : Engine) : e.abortReading.digest = e.digest := rfl
@[simp] theorem Engine.abortReading_pend (e : Engine) : e.abortReading.pend = e.pend := rfl
@[simp] theorem Engine.abortReading_scratch (e : Engine) : e.abortReading.scratch = e.scratch := rfl
@[simp] theorem Engine.abortReading_page (e : Engine) : e.abortReading.page = e.page := rfl
@[simp] theorem Engine.abortReading_timer (e : Engine) : e.abortReading.timer = e.timer := rfl
@[simp] theorem Engine.abortReading_latencies (e : Engine) : e.abortReading.latencies = e.latencies := rfl

/-! ### digestCommit -/

@[simp] theorem Engine.digestCommit_h (e : Engine) : e.digestCommit.h = e.h := rfl
@[simp] theorem Engine.digestCommit_buf (e : Engine) : e.digestCommit.buf = e.buf := rfl
@[simp] theorem Engine.digestCommit_bitCount (e : Engine) : e.digestCommit.bitCount = e.bitCount := rfl
@[simp] theorem Engine.digestCommit_padState (e : Engine) : e.digestCommit.padState = e.padState := rfl
@[simp] theorem Engine.digestCommit_drv (e : Engine) : e.digestCommit.drv = .finished := rfl
@[simp] theorem Engine.digestCommit_alg (e : Engine) : e.digestCommit.alg = e.alg := rfl
@[simp] theorem Engine.digestCommit_busy (e : Engine) : e.digestCommit.busy = e.busy := rfl
@[simp] theorem Engine.digestCommit_err (e : Engine) : e.digestCommit.err = e.err := rfl
@[simp] theorem Engine.digestCommit_digestValid (e : Engine) : e.digestCommit.digestValid = true := rfl
@[simp] theorem Engine.digestCommit_errCode (e : Engine) : e.digestCommit.errCode = e.errCode := rfl
@[simp] theorem Engine.digestCommit_digest (e : Engine) : e.digestCommit.digest = serialize e.h e.alg := rfl
@[simp] theorem Engine.digestCommit_pend (e : Engine) : e.digestCommit.pend = e.pend := rfl
@[simp] theorem Engine.digestCommit_scratch (e : Engine) : e.digestCommit.scratch = e.scratch := rfl
@[simp] theorem Engine.digestCommit_page (e : Engine) : e.digestCommit.page = e.page := rfl
@[simp] theorem Engine.digestCommit_timer (e : Engine) : e.digestCommit.timer = e.timer := rfl
@[simp] theorem Engine.digestCommit_latencies (e : Engine) : e.digestCommit.latencies = e.latencies := rfl

/-! ### hide -/

@[simp] theorem Engine.hide_h (e : Engine) : e.hide.h = e.h := rfl
@[simp] theorem Engine.hide_buf (e : Engine) : e.hide.buf = e.buf := rfl
@[simp] theorem Engine.hide_bitCount (e : Engine) : e.hide.bitCount = e.bitCount := rfl
@[simp] theorem Engine.hide_padState (e : Engine) : e.hide.padState = e.padState := rfl
@[simp] theorem Engine.hide_drv (e : Engine) : e.hide.drv = e.drv := rfl
@[simp] theorem Engine.hide_alg (e : Engine) : e.hide.alg = e.alg := rfl
@[simp] theorem Engine.hide_busy (e : Engine) : e.hide.busy = e.busy := rfl
@[simp] theorem Engine.hide_err (e : Engine) : e.hide.err = e.err := rfl
@[simp] theorem Engine.hide_digestValid (e : Engine) : e.hide.digestValid = e.digestValid := rfl
@[simp] theorem Engine.hide_errCode (e : Engine) : e.hide.errCode = e.errCode := rfl
@[simp] theorem Engine.hide_digest (e : Engine) : e.hide.digest = e.digest := rfl
@[simp] theorem Engine.hide_pend (e : Engine) : e.hide.pend = e.pend := rfl
@[simp] theorem Engine.hide_scratch (e : Engine) : e.hide.scratch = Scratch.zero := rfl
@[simp] theorem Engine.hide_page (e : Engine) : e.hide.page = e.page := rfl
@[simp] theorem Engine.hide_timer (e : Engine) : e.hide.timer = e.timer := rfl
@[simp] theorem Engine.hide_latencies (e : Engine) : e.hide.latencies = e.latencies := rfl

/-! ### loadBytes -/

@[simp] theorem Engine.loadBytes_h (d : List Byte) (e : Engine) : (e.loadBytes d).h = e.h := by simp only [Engine.loadBytes]
@[simp] theorem Engine.loadBytes_buf (d : List Byte) (e : Engine) : (e.loadBytes d).buf = Vector.ofFn fun j => if j.val < d.length then d.getD j.val 0 else e.buf[j] := by simp only [Engine.loadBytes]
@[simp] theorem Engine.loadBytes_bitCount (d : List Byte) (e : Engine) : (e.loadBytes d).bitCount = e.bitCount := by simp only [Engine.loadBytes]
@[simp] theorem Engine.loadBytes_padState (d : List Byte) (e : Engine) : (e.loadBytes d).padState = e.padState := by simp only [Engine.loadBytes]
@[simp] theorem Engine.loadBytes_drv (d : List Byte) (e : Engine) : (e.loadBytes d).drv = e.drv := by simp only [Engine.loadBytes]
@[simp] theorem Engine.loadBytes_alg (d : List Byte) (e : Engine) : (e.loadBytes d).alg = e.alg := by simp only [Engine.loadBytes]
@[simp] theorem Engine.loadBytes_busy (d : List Byte) (e : Engine) : (e.loadBytes d).busy = e.busy := by simp only [Engine.loadBytes]
@[simp] theorem Engine.loadBytes_err (d : List Byte) (e : Engine) : (e.loadBytes d).err = e.err := by simp only [Engine.loadBytes]
@[simp] theorem Engine.loadBytes_digestValid (d : List Byte) (e : Engine) : (e.loadBytes d).digestValid = e.digestValid := by simp only [Engine.loadBytes]
@[simp] theorem Engine.loadBytes_errCode (d : List Byte) (e : Engine) : (e.loadBytes d).errCode = e.errCode := by simp only [Engine.loadBytes]
@[simp] theorem Engine.loadBytes_digest (d : List Byte) (e : Engine) : (e.loadBytes d).digest = e.digest := by simp only [Engine.loadBytes]
@[simp] theorem Engine.loadBytes_pend (d : List Byte) (e : Engine) : (e.loadBytes d).pend = e.pend := by simp only [Engine.loadBytes]
@[simp] theorem Engine.loadBytes_scratch (d : List Byte) (e : Engine) : (e.loadBytes d).scratch = e.scratch := by simp only [Engine.loadBytes]
@[simp] theorem Engine.loadBytes_page (d : List Byte) (e : Engine) : (e.loadBytes d).page = e.page := by simp only [Engine.loadBytes]
@[simp] theorem Engine.loadBytes_timer (d : List Byte) (e : Engine) : (e.loadBytes d).timer = e.timer := by simp only [Engine.loadBytes]
@[simp] theorem Engine.loadBytes_latencies (d : List Byte) (e : Engine) : (e.loadBytes d).latencies = e.latencies := by simp only [Engine.loadBytes]

/-! ### The machine -/

@[simp] theorem State.tick_self (s : State) : s.tick.self = s.self.tick := rfl
@[simp] theorem State.tick_peers (s : State) : s.tick.peers = s.peers.map Engine.tick := rfl
@[simp] theorem State.tick_queue (s : State) : s.tick.queue = s.queue := rfl
@[simp] theorem State.tick_reads (s : State) : s.tick.reads = s.reads := rfl
@[simp] theorem State.tick_draws (s : State) : s.tick.draws = s.draws := rfl
@[simp] theorem State.holdOff_self (s : State) : s.holdOff.self = s.self.holdOff := rfl
@[simp] theorem State.holdOff_peers (s : State) : s.holdOff.peers = s.peers.map Engine.holdOff := rfl
@[simp] theorem State.holdOff_queue (s : State) : s.holdOff.queue = s.queue := rfl
@[simp] theorem State.holdOff_reads (s : State) : s.holdOff.reads = s.reads := rfl
@[simp] theorem State.holdOff_draws (s : State) : s.holdOff.draws = s.draws := rfl
@[simp] theorem State.hide_self (s : State) : s.hide.self = s.self.hide := rfl
@[simp] theorem State.hide_peers (s : State) : s.hide.peers = s.peers.map Engine.hide := rfl
@[simp] theorem State.hide_queue (s : State) : s.hide.queue = s.queue := rfl
@[simp] theorem State.hide_reads (s : State) : s.hide.reads = s.reads := rfl
@[simp] theorem State.hide_draws (s : State) : s.hide.draws = s.draws := rfl
@[simp] theorem State.readSelf_self (r : WindowReg) (s : State) : (s.readSelf r).self = s.self := rfl
@[simp] theorem State.readSelf_peers (r : WindowReg) (s : State) : (s.readSelf r).peers = s.peers := rfl
@[simp] theorem State.readSelf_queue (r : WindowReg) (s : State) : (s.readSelf r).queue = s.queue := rfl
@[simp] theorem State.resetSelf_self (s : State) : s.resetSelf.self = s.self.resetEvent s.draws := rfl
@[simp] theorem State.resetSelf_peers (s : State) : s.resetSelf.peers = s.peers := rfl
@[simp] theorem State.resetSelf_queue (s : State) : s.resetSelf.queue = s.queue := rfl
@[simp] theorem State.doFirst_self (l : List HostOp) (s : State) : (s.doFirst l).self = s.self := rfl
@[simp] theorem State.doFirst_peers (l : List HostOp) (s : State) : (s.doFirst l).peers = s.peers := rfl
@[simp] theorem State.doFirst_queue (l : List HostOp) (s : State) : (s.doFirst l).queue = l ++ s.queue := rfl

end Sys2Proof.Machine
end

