-- ==== Sys2Proof/Laws/Ops.lean ====
section
/-! SUPPORT. What the shared operations do, said once: a command acts on its engine alone, changing places with an engine
is undone by doing it again, and what one step can do to one engine. -/

namespace Sys2Proof.Machine

/-! ### Commands -/

/-- A command's meaning is its effect on the engine it is written to, and nothing else. -/
theorem exec_eq_issue (i : Instr) (s : State) : exec i s = .next { s with self := s.self.issue i } := by
  cases i <;> rfl

theorem execIllegal_eq (s : State) :
    execIllegal s =
      .next { s with self := Engine.unlessBusyOrError (Engine.raiseError .illegalCommand) s.self } := rfl

@[simp] theorem Engine.unlessBusy_of_busy (f : Engine → Engine) (e : Engine) (h : e.busy = true) :
    e.unlessBusy f = e.recordBusyViolation := by simp [Engine.unlessBusy, h]

@[simp] theorem Engine.unlessBusy_of_idle (f : Engine → Engine) (e : Engine) (h : e.busy = false) :
    e.unlessBusy f = f e := by simp [Engine.unlessBusy, h]

@[simp] theorem Engine.unlessBusyOrError_of_busy (f : Engine → Engine) (e : Engine) (h : e.busy = true) :
    e.unlessBusyOrError f = e.recordBusyViolation := by simp [Engine.unlessBusyOrError, h]

@[simp] theorem Engine.unlessBusyOrError_of_err (f : Engine → Engine) (e : Engine) (h : e.busy = false)
    (h' : e.err = true) : e.unlessBusyOrError f = e := by simp [Engine.unlessBusyOrError, h, h']

@[simp] theorem Engine.unlessBusyOrError_of_ready (f : Engine → Engine) (e : Engine) (h : e.busy = false)
    (h' : e.err = false) : e.unlessBusyOrError f = f e := by simp [Engine.unlessBusyOrError, h, h']

/-- Everything a command can do to its engine. -/
theorem Engine.issue_cases (i : Instr) (e : Engine) :
    (e.busy = true ∧ e.issue i = e.recordBusyViolation) ∨
    (e.busy = false ∧ e.err = true ∧ (∀ a, i ≠ .init a) ∧ e.issue i = e) ∨
    (e.busy = false ∧ e.err = false ∧ i = .nop ∧ e.issue i = e) ∨
    (e.busy = false ∧ (∃ n a, i = .init n ∧ algOperand n = some a ∧ e.issue i = e.initLegal a)) ∨
    (e.busy = false ∧ (∃ n, i = .init n ∧ algOperand n = none ∧ e.issue i = e.initFail)) ∨
    (e.busy = false ∧ e.err = false ∧ ∃ n, i = .next n ∧ 64 < n ∧ e.issue i = e.raiseError .badLength) ∨
    (e.busy = false ∧ e.err = false ∧ e.drv ≠ .reading ∧ (∀ a, i ≠ .init a) ∧ e.issue i = e.raiseError .wrongState) ∨
    (e.busy = false ∧ e.err = false ∧ e.drv = .reading ∧
      ((∃ n : Fin 65, i = .next n.val ∧ e.issue i = e.accept (.next n)) ∨
        (i = .compress ∧ e.issue i = e.accept .compress) ∨ (i = .abort ∧ e.issue i = e.abortReading))) := by
  rcases hb : e.busy with _ | _
  case true =>
    left
    cases i <;> simp [Engine.issue, hb]
  rcases he : e.err with _ | _
  case true =>
    cases i with
    | init n => cases ha : algOperand n <;> simp [Engine.issue, hb, ha]
    | _ => simp [Engine.issue, hb, he]
  cases i with
  | nop => simp [Engine.issue, hb, he]
  | init n => cases ha : algOperand n <;> simp [Engine.issue, hb, ha]
  | next n =>
    by_cases hn : n < 65
    · by_cases hd : e.drv = .reading
      · iterate 7 right
        refine ⟨rfl, rfl, hd, .inl ⟨⟨n, hn⟩, rfl, ?_⟩⟩
        simp [Engine.issue, Engine.issueNext, countOperand, Engine.ifReading, hb, he, hn, hd]
      · simp [Engine.issue, Engine.issueNext, countOperand, Engine.ifReading, hb, he, hn, hd]
    · have : 64 < n := by omega
      simp [Engine.issue, Engine.issueNext, countOperand, hb, he, hn, this]
  | compress => by_cases hd : e.drv = .reading <;> simp [Engine.issue, Engine.ifReading, hb, he, hd]
  | abort => by_cases hd : e.drv = .reading <;> simp [Engine.issue, Engine.ifReading, hb, he, hd]

/-! ### Engines by number -/

theorem State.swapIn_engines (k : Nat) (s : State) (e : Engine) (h : s.engines[k]? = some e) :
    (s.swapIn k).self = e := by
  cases k with
  | zero => simpa [State.engines, State.swapIn] using h
  | succ j =>
    simp only [State.engines, List.getElem?_cons_succ] at h
    simp [State.swapIn, h]

/-- Changing places twice changes nothing. -/
theorem State.swapIn_swapIn (k : Nat) (s : State) : (s.swapIn k).swapIn k = s := by
  cases k with
  | zero => rfl
  | succ j =>
    simp only [State.swapIn]
    cases h : s.peers[j]? with
    | none => simp [h]
    | some p =>
      obtain ⟨hj, hp⟩ := List.getElem?_eq_some_iff.mp h
      simp [hj, ← hp]

@[simp] theorem State.swapIn_queue (k : Nat) (s : State) : (s.swapIn k).queue = s.queue := by
  cases k with
  | zero => rfl
  | succ j => simp only [State.swapIn]; split <;> rfl

@[simp] theorem State.swapIn_reads (k : Nat) (s : State) : (s.swapIn k).reads = s.reads := by
  cases k with
  | zero => rfl
  | succ j => simp only [State.swapIn]; split <;> rfl

@[simp] theorem State.swapIn_draws (k : Nat) (s : State) : (s.swapIn k).draws = s.draws := by
  cases k with
  | zero => rfl
  | succ j => simp only [State.swapIn]; split <;> rfl

/-- Engine number `k` replaced. -/
def State.setEngine (k : Nat) (e : Engine) (s : State) : State :=
  match k with
  | 0 => { s with self := e }
  | j + 1 => { s with peers := s.peers.set j e }

theorem State.setEngine_engines (k : Nat) (e : Engine) (s : State) :
    (s.setEngine k e).engines = s.engines.set k e := by
  cases k <;> rfl

/-- An operation on engine number `k` that changes that engine to `e'`, and the host's part of the state as `f` says, does
just that. -/
theorem State.withEngine_next {k : Nat} {s : State} {e e' : Engine} {f : State → Host.Outcome State Fault Refusal}
    {q : List HostOp} {r : List Word} {d : Nat} (h : s.engines[k]? = some e)
    (hf : f (s.swapIn k) = .next { s.swapIn k with self := e', queue := q, reads := r, draws := d }) :
    s.withEngine k f = .next { s.setEngine k e' with queue := q, reads := r, draws := d } := by
  simp only [State.withEngine, hf]
  cases k with
  | zero => rfl
  | succ j =>
    simp only [State.engines, List.getElem?_cons_succ] at h
    obtain ⟨hj, hp⟩ := List.getElem?_eq_some_iff.mp h
    simp [State.swapIn, State.setEngine, hj]

theorem State.setEngine_same {k : Nat} {s : State} {e : Engine} (h : s.engines[k]? = some e) :
    s.setEngine k e = s := by
  cases k with
  | zero => simp [State.engines] at h; subst h; rfl
  | succ j =>
    simp only [State.engines, List.getElem?_cons_succ] at h
    obtain ⟨hj, hp⟩ := List.getElem?_eq_some_iff.mp h
    simp [State.setEngine, ← hp]

theorem State.tick_engines (s : State) : s.tick.engines = s.engines.map Engine.tick := rfl

@[simp] theorem Engine.tick_page (e : Engine) : e.tick.page = e.page := by
  simp only [Engine.tick]; split <;> rfl

/-- The window search gives an engine with that page, the first one. -/
theorem State.findWindow_some {s : State} {addr k : Nat} (h : s.findWindow addr = some k) :
    ∃ e, s.engines[k]? = some e ∧ e.page = pageOf addr := by
  obtain ⟨hk, hp, -⟩ := List.findIdx?_eq_some_iff_getElem.mp h
  exact ⟨s.engines[k], by simp [hk], by simpa using hp⟩

theorem State.findWindow_none {s : State} {addr : Nat} :
    s.findWindow addr = none ↔ ∀ e ∈ s.engines, e.page ≠ pageOf addr := by
  simp [State.findWindow, List.findIdx?_eq_none_iff]

/-- The due engine is one with a command in flight whose LATENCY has passed. -/
theorem State.dueEngine_some {s : State} {k : Nat} (h : s.dueEngine = some k) :
    ∃ e, s.engines[k]? = some e ∧ e.due = true := by
  obtain ⟨hk, hp, -⟩ := List.findIdx?_eq_some_iff_getElem.mp h
  exact ⟨s.engines[k], by simp [hk], hp⟩

theorem State.dueEngine_none {s : State} : s.dueEngine = none ↔ ∀ e ∈ s.engines, e.due = false := by
  simp [State.dueEngine, List.findIdx?_eq_none_iff]

end Sys2Proof.Machine
end

