-- ==== Sys2Proof/Laws/Padder.lean ====
section
/-! SUPPORT. The padding functions: every block has 64 bytes (40_padder.md R104), and each of its bytes. -/

namespace Sys2Proof.Machine

@[simp] theorem len8_length (bc : BitVec 64) (alg : Alg) : (len8 bc alg).length = 8 := by
  cases alg <;> rfl

theorem len8_getD (bc : BitVec 64) (alg : Alg) (j : Nat) (h : 56 ≤ j) (h' : j < 64) :
    (len8 bc alg).getD (j - 56) 0 = lengthByte bc alg j := by
  obtain ⟨i, rfl⟩ : ∃ i, j = 56 + i := ⟨j - 56, by omega⟩
  have hi : i < 8 := by omega
  interval_cases i <;> cases alg <;> rfl

theorem zeros_getD (k j : Nat) : (zeros k).getD j 0 = 0 := by
  simp only [zeros, List.getD_eq_getElem?_getD, List.getElem?_replicate]
  split <;> rfl

theorem padBlock_length (d : List Byte) (bc : BitVec 64) (alg : Alg) (h : d.length ≤ 64) :
    (padBlock d bc alg).1.length = 64 := by
  simp only [padBlock]
  split
  · assumption
  · split <;> simp <;> omega

theorem padOnlyBlock_length (bc : BitVec 64) (alg : Alg) : (padOnlyBlock bc alg).length = 64 := by
  simp [padOnlyBlock]

/-- The padder state after a data block (40_padder.md R111). -/
theorem padBlock_state (d : List Byte) (bc : BitVec 64) (alg : Alg) :
    (padBlock d bc alg).2 =
      if d.length = 64 then .reading else if d.length < 56 then .done else .onePadEmitted := by
  simp only [padBlock]
  split
  · rfl
  · split <;> rfl

theorem bufPrefix_length (e : Engine) (n : Nat) (h : n ≤ 64) : (e.bufPrefix n).length = n := by
  simp [Engine.bufPrefix, h]

/-- The bytes of the block a NEXT forms in READING. -/
theorem padBlock_bytes (e : Engine) (n : Nat) (bc : BitVec 64) (alg : Alg) (h : n ≤ 64) :
    bytesOf 64 (padBlock (e.bufPrefix n) bc alg).1 = Vector.ofFn (dataBlockByte e.buf n bc alg) := by
  apply Vector.ext
  intro j hj
  have hd : ∀ l : List Byte, j < n → (e.bufPrefix n ++ l).getD j 0 = e.buf[j] := by
    intro l hn
    simp [List.getD_eq_getElem?_getD, Engine.bufPrefix, List.getElem?_append_left, hn, h]
  have hm : ∀ l : List Byte, n ≤ j → (e.bufPrefix n ++ l).getD j 0 = l.getD (j - n) 0 := by
    intro l hn
    rw [List.getD_append_right _ _ _ _ (by rw [bufPrefix_length _ _ h]; exact hn), bufPrefix_length _ _ h]
  simp only [bytesOf_getElem, Vector.getElem_ofFn, dataBlockByte, padBlock, bufPrefix_length _ _ h, Fin.getElem_fin]
  by_cases h64 : n = 64
  · have := hd [] (by omega)
    simp only [List.append_nil] at this
    simp [h64, hj]
    rw [← this, h64]; simp
  · simp only [h64, if_false]
    by_cases h56 : n < 56
    · simp only [h56, if_true, true_and, List.append_assoc]
      by_cases h1 : j < n
      · simp only [h1, if_true]; exact hd _ h1
      · rw [hm _ (by omega)]
        by_cases h2 : j = n
        · subst h2; simp [padMarker]
        · rw [List.getD_append_right _ _ _ _ (by simp; omega)]
          simp only [List.length_singleton, h1, h2, if_false]
          by_cases h3 : 56 ≤ j
          · rw [List.getD_append_right _ _ _ _ (by simp; omega)]
            simp only [h3, if_true, zeros_length]
            rw [← len8_getD _ _ _ h3 hj]
            congr 1; omega
          · rw [List.getD_append _ _ _ _ (by simp; omega), zeros_getD]
            simp [h3]
    · simp only [h56, if_false, false_and, List.append_assoc]
      by_cases h1 : j < n
      · simp only [h1, if_true]; exact hd _ h1
      · rw [hm _ (by omega)]
        by_cases h2 : j = n
        · subst h2; simp [padMarker]
        · rw [List.getD_append_right _ _ _ _ (by simp; omega), zeros_getD]
          simp [h1, h2]

/-- The bytes of the pad-only block. -/
theorem padOnlyBlock_bytes (bc : BitVec 64) (alg : Alg) :
    bytesOf 64 (padOnlyBlock bc alg) = Vector.ofFn (padOnlyByte bc alg) := by
  apply Vector.ext
  intro j hj
  simp only [bytesOf_getElem, Vector.getElem_ofFn, padOnlyByte, padOnlyBlock]
  by_cases h : j < 56
  · rw [List.getD_append _ _ _ _ (by simpa using h), zeros_getD]; simp [h]
  · rw [List.getD_append_right _ _ _ _ (by simp; omega), zeros_length, len8_getD _ _ _ (by omega) hj]; simp [h]

end Sys2Proof.Machine
end

