-- ==== Sys2Proof/Laws/Engine.lean ====
section
/-! SUPPORT. What the passing of time, the busy violation, a completion and a reset do to each field of an engine. -/

namespace Sys2Proof.Machine

/-! ### Time changes the timer alone -/

/-- Time changes nothing but the timer. -/
theorem Engine.tick_eq (e : Engine) : ∃ n, e.tick = { e with timer := n } := by
  simp only [Engine.tick]
  split
  · exact ⟨_, rfl⟩
  · exact ⟨e.timer, rfl⟩

theorem Engine.tick_of_none (e : Engine) (h : e.pend = none) : e.tick = e := by simp [Engine.tick, h]

@[simp] theorem Engine.tick_h (e : Engine) : e.tick.h = e.h := by obtain ⟨n, h⟩ := e.tick_eq; rw [h]
@[simp] theorem Engine.tick_buf (e : Engine) : e.tick.buf = e.buf := by obtain ⟨n, h⟩ := e.tick_eq; rw [h]
@[simp] theorem Engine.tick_bitCount (e : Engine) : e.tick.bitCount = e.bitCount := by
  obtain ⟨n, h⟩ := e.tick_eq; rw [h]
@[simp] theorem Engine.tick_padState (e : Engine) : e.tick.padState = e.padState := by
  obtain ⟨n, h⟩ := e.tick_eq; rw [h]
@[simp] theorem Engine.tick_drv (e : Engine) : e.tick.drv = e.drv := by obtain ⟨n, h⟩ := e.tick_eq; rw [h]
@[simp] theorem Engine.tick_alg (e : Engine) : e.tick.alg = e.alg := by obtain ⟨n, h⟩ := e.tick_eq; rw [h]
@[simp] theorem Engine.tick_busy (e : Engine) : e.tick.busy = e.busy := by obtain ⟨n, h⟩ := e.tick_eq; rw [h]
@[simp] theorem Engine.tick_err (e : Engine) : e.tick.err = e.err := by obtain ⟨n, h⟩ := e.tick_eq; rw [h]
@[simp] theorem Engine.tick_digestValid (e : Engine) : e.tick.digestValid = e.digestValid := by
  obtain ⟨n, h⟩ := e.tick_eq; rw [h]
@[simp] theorem Engine.tick_errCode (e : Engine) : e.tick.errCode = e.errCode := by
  obtain ⟨n, h⟩ := e.tick_eq; rw [h]
@[simp] theorem Engine.tick_digest (e : Engine) : e.tick.digest = e.digest := by
  obtain ⟨n, h⟩ := e.tick_eq; rw [h]
@[simp] theorem Engine.tick_pend (e : Engine) : e.tick.pend = e.pend := by obtain ⟨n, h⟩ := e.tick_eq; rw [h]
@[simp] theorem Engine.tick_scratch (e : Engine) : e.tick.scratch = e.scratch := by
  obtain ⟨n, h⟩ := e.tick_eq; rw [h]
@[simp] theorem Engine.tick_latencies (e : Engine) : e.tick.latencies = e.latencies := by
  obtain ⟨n, h⟩ := e.tick_eq; rw [h]
@[simp] theorem Engine.tick_readReg (e : Engine) (w : Word) (r : WindowReg) : e.tick.readReg w r = e.readReg w r := by
  obtain ⟨n, h⟩ := e.tick_eq; rw [h]; rfl

/-! ### A busy violation changes ERR and ERRCODE alone -/

/-- A write while BUSY leaves everything but ERR and ERRCODE, and those too when an error is recorded. -/
theorem Engine.recordBusyViolation_cases (e : Engine) :
    (e.err = true ∧ e.recordBusyViolation = e) ∨
    (e.err = false ∧ e.recordBusyViolation = { e with err := true, errCode := .busyViolation }) := by
  cases h : e.err <;> simp [Engine.recordBusyViolation, h, Engine.raiseError]

/-- A host write of H. -/
theorem Engine.writeH_cases (i : Fin 8) (v : Word) (e : Engine) :
    (e.busy = true ∧ e.writeH i v = e.recordBusyViolation) ∨
    (e.busy = false ∧ e.writeH i v = { e with h := e.h.set i.val v }) := by
  cases h : e.busy <;> simp [Engine.writeH, h]

/-- BUF with a word written. -/
def bufWithWord (k : Fin 16) (v : Word) (b : Vector Byte 64) : Vector Byte 64 :=
  Vector.ofFn fun j => if j.val / 4 = k.val then byteOf v (j.val % 4) else b[j]

theorem bufWithWord_getElem (k : Fin 16) (v : Word) (b : Vector Byte 64) (j : Nat) (hj : j < 64) :
    (bufWithWord k v b)[j] = if j / 4 = k.val then byteOf v (j % 4) else b[j] := by
  simp [bufWithWord]

/-- A host write of BUF. -/
theorem Engine.writeBuf_cases (k : Fin 16) (v : Word) (e : Engine) :
    (e.busy = true ∧ e.writeBuf k v = e.recordBusyViolation) ∨
    (e.busy = false ∧ e.writeBuf k v = { e with buf := bufWithWord k v e.buf }) := by
  cases h : e.busy <;> simp [Engine.writeBuf, h, bufWithWord]

/-! ### Completion -/

/-- Everything a completion can be: the padder's three branches of NEXT, COMPRESS, or nothing in flight. -/
theorem Engine.complete_cases (e : Engine) :
    (e.pend = none ∧ e.complete = e) ∨
    (∃ n : Fin 65, e.pend = some (.next n) ∧ e.padState = .reading ∧ e.complete = (e.nextData n.val).retire) ∨
    (∃ n : Fin 65, e.pend = some (.next n) ∧ e.padState = .onePadEmitted ∧ e.complete = e.nextPadOnly.retire) ∨
    (∃ n : Fin 65, e.pend = some (.next n) ∧ e.padState = .done ∧ e.complete = e.digestCommit.retire) ∨
    (e.pend = some .compress ∧ e.complete = (e.compress e.buf).retire) := by
  simp only [Engine.complete]
  cases hp : e.pend with
  | none => simp
  | some c =>
    cases c with
    | next n => cases hs : e.padState <;> simp [Engine.nextBody, hs]
    | compress => simp [Engine.compressBody]

/-- NEXT in READING, by its fields: the block byte by byte, the count, and the padder's move (40_padder.md R110). -/
theorem Engine.nextData_eq (e : Engine) (n : Nat) (h : n ≤ 64) :
    e.nextData n =
      { e.compress (Vector.ofFn (dataBlockByte e.buf n (e.bitCount + BitVec.ofNat 64 (8 * n)) e.alg)) with
        bitCount := e.bitCount + BitVec.ofNat 64 (8 * n)
        padState := if n = 64 then .reading else if n < 56 then .done else .onePadEmitted } := by
  simp only [Engine.nextData, padBlock_bytes e n _ _ h, padBlock_state, bufPrefix_length e n h]

/-- NEXT in ONE_PAD_ALREADY_EMITTED, by its fields (40_padder.md R112). -/
theorem Engine.nextPadOnly_eq (e : Engine) :
    e.nextPadOnly = { e.compress (Vector.ofFn (padOnlyByte e.bitCount e.alg)) with padState := .done } := by
  simp only [Engine.nextPadOnly, padOnlyBlock_bytes]

end Sys2Proof.Machine
end

