-- ==== Sys2Proof/Laws/Step.lean ====
section
/-! SUPPORT. What one step can do, said once: which engine it concerns, and every change it can make to one engine. The
whole-machine claims are case analyses over `State.Moves`. -/

namespace Sys2Proof.Machine

/-- Everything one step from `s` can make of engine number `k`, which holds `e`. -/
inductive State.Moves (s : State) (k : Nat) (e : Engine) : Engine → Prop where
  /-- Another engine's completion is the event. -/
  | stays (j : Nat) (hj : s.dueEngine = some j) (hk : j ≠ k) : State.Moves s k e e
  /-- Its completion is the event. -/
  | completes (h : s.dueEngine = some k) (hd : e.due = true) : State.Moves s k e e.complete
  /-- The host's operation does not change it. -/
  | waits (h : s.dueEngine = none) : State.Moves s k e e.tick
  /-- A command word is written to it. -/
  | commands (c : Word) (i : Instr) (h : s.NextWrite e.page 0 c) (hd : decode c = .ok i) :
    State.Moves s k e (e.tick.issue i)
  /-- An ILLEGAL word is written to it. -/
  | illegal (c : Word) (x : DecodeError) (h : s.NextWrite e.page 0 c) (hd : decode c = .error x) :
    State.Moves s k e (e.tick.unlessBusyOrError (Engine.raiseError .illegalCommand))
  /-- The host writes one of its H words. -/
  | writesH (off : Nat) (i : Fin 8) (v : Word) (h : s.NextWrite e.page off v) (hr : windowReg off = .h i) :
    State.Moves s k e (e.tick.writeH i v)
  /-- The host writes a word of its BUF. -/
  | writesBuf (off : Nat) (i : Fin 16) (v : Word) (h : s.NextWrite e.page off v) (hr : windowReg off = .buf i) :
    State.Moves s k e (e.tick.writeBuf i v)
  /-- The reset signal reaches it. -/
  | resets (h : s.NextReset e.page) : State.Moves s k e (e.tick.resetEvent s.draws)

/-- An operation that leaves the peers alone, done on engine number `k`, changes engine number `k` alone. -/
theorem State.withEngine_acts {f : State → Host.Outcome State Fault Refusal}
    (hf : ∀ u v, f u = .next v → v.peers = u.peers) {k : Nat} {s t : State} {e : Engine}
    (he : s.engines[k]? = some e) (h : s.withEngine k f = .next t) :
    ∃ v, f (s.swapIn k) = .next v ∧ t.engines = s.engines.set k v.self ∧ t.queue = v.queue ∧ t.reads = v.reads ∧
      t.draws = v.draws := by
  simp only [State.withEngine] at h
  split at h <;> simp only [Host.Outcome.next.injEq, reduceCtorEq] at h
  next v hv =>
    subst h
    refine ⟨v, hv, ?_, by simp, by simp, by simp⟩
    have hp := hf _ _ hv
    cases k with
    | zero => simp [State.engines, State.swapIn] at hp ⊢; exact hp
    | succ j =>
      simp only [State.engines, List.getElem?_cons_succ] at he
      obtain ⟨hj, hpe⟩ := List.getElem?_eq_some_iff.mp he
      have hs : (s.swapIn (j + 1)).peers = s.peers.set j s.self := by simp [State.swapIn, he]
      rw [hs] at hp
      simp [State.engines, State.swapIn, hp, hj]

theorem State.completeSelf_peers (u v : State) (h : u.completeSelf = .next v) : v.peers = u.peers := by
  simp only [State.completeSelf, State.command, Host.Outcome.next.injEq] at h
  subst h; rfl

/-- What a CMD write makes of its engine. -/
def Engine.takeWord (c : Word) (e : Engine) : Engine :=
  match decode c with
  | .ok i => e.issue i
  | .error _ => e.unlessBusyOrError (Engine.raiseError .illegalCommand)

theorem State.writeCmd_eq (c : Word) (s : State) : s.writeCmd c = .next { s with self := s.self.takeWord c } := by
  cases hd : decode c with
  | ok i => simp only [State.writeCmd, Engine.takeWord, hd, exec_eq_issue]
  | error x => simp only [State.writeCmd, Engine.takeWord, hd, execIllegal_eq]

/-- What a register write makes of its engine. -/
def Engine.written (r : WindowReg) (v : Word) (e : Engine) : Engine :=
  match r with
  | .cmd => e.takeWord v
  | r => e.writeReg v r

theorem State.writeSelf_eq (r : WindowReg) (v : Word) (s : State) :
    s.writeSelf r v = .next { s with self := s.self.written r v } := by
  cases r <;> simp only [State.writeSelf, State.writeCmd_eq, Engine.written]

theorem State.busWrite_next {s t : State} {addr : Nat} {w : AccessWidth} {v : Word}
    (h : s.busWrite addr w v = .next t) :
    ∃ k e, s.findWindow addr = some k ∧ s.engines[k]? = some e ∧ e.page = pageOf addr ∧
      accessPerformed addr w = true ∧
      t.engines = s.engines.set k (e.written (windowReg (offsetOf addr)) v) ∧ t.queue = s.queue ∧
      t.reads = s.reads ∧ t.draws = s.draws := by
  simp only [State.busWrite, State.atWindow] at h
  split at h
  next k hk =>
    obtain ⟨e, he, hp⟩ := State.findWindow_some hk
    obtain ⟨u, hu, h1, h2, h3, h4⟩ := State.withEngine_acts (e := e) (by
      intro u v hv
      split at hv
      · rw [State.writeSelf_eq] at hv
        cases hv; rfl
      · exact absurd hv (by simp)) he h
    have hself := State.swapIn_engines k s e he
    cases hacc : accessPerformed addr w with
    | false => simp [hacc] at hu
    | true =>
      simp only [hacc, if_true, State.writeSelf_eq, hself, Host.Outcome.next.injEq] at hu
      subst hu
      exact ⟨k, e, hk, he, hp, rfl, h1, by simpa using h2, by simpa using h3, by simpa using h4⟩
  next => exact absurd h (by simp)

theorem State.busRead_next {s t : State} {addr : Nat} {w : AccessWidth} (h : s.busRead addr w = .next t) :
    ∃ k e, s.findWindow addr = some k ∧ s.engines[k]? = some e ∧ e.page = pageOf addr ∧
      accessPerformed addr w = true ∧ t.engines = s.engines ∧ t.queue = s.queue ∧
      t.reads = e.readReg (Config.freeWord s.draws) (windowReg (offsetOf addr)) :: s.reads ∧
      t.draws = if e.busy then s.draws + 1 else s.draws := by
  simp only [State.busRead, State.atWindow] at h
  split at h
  next k hk =>
    obtain ⟨e, he, hp⟩ := State.findWindow_some hk
    obtain ⟨u, hu, h1, h2, h3, h4⟩ := State.withEngine_acts (e := e) (by
      intro u v hv
      split at hv
      · cases hv; rfl
      · exact absurd hv (by simp)) he h
    have hself := State.swapIn_engines k s e he
    cases hacc : accessPerformed addr w with
    | false => simp [hacc] at hu
    | true =>
      simp only [hacc, if_true, Host.Outcome.next.injEq] at hu
      subst hu
      obtain ⟨hj, hpe⟩ := List.getElem?_eq_some_iff.mp he
      refine ⟨k, e, hk, he, hp, rfl, ?_, by simpa using h2, ?_, ?_⟩
      · rw [h1]; simp [hself, ← hpe]
      · rw [h3]; simp [State.readSelf, hself]
      · rw [h4]; simp [State.readSelf, hself]
  next => exact absurd h (by simp)

theorem State.pollStatus_engines {s t : State} {page : Nat} {more : Word → State → State}
    (hm : ∀ w u, (more w u).engines = u.engines) (h : s.pollStatus page more = .next t) : t.engines = s.engines := by
  simp only [State.pollStatus] at h
  split at h <;> simp only [Host.Outcome.next.injEq, reduceCtorEq] at h
  next u hu =>
    obtain ⟨k, e, -, -, -, -, h1, -⟩ := State.busRead_next hu
    rw [← h, hm, h1]

/-- A host operation concerns the engine whose window it addresses. -/
def HostOp.page? : HostOp → Option Nat
  | .write addr _ _ => some (pageOf addr)
  | .read addr _ => some (pageOf addr)
  | .wait page => some page
  | .finish page => some page
  | .reset page => some page
  | .idle => none

theorem windowAddr_pageOf (addr : Nat) : windowAddr (pageOf addr) (offsetOf addr) = addr := by
  simp only [windowAddr, pageOf, offsetOf]; omega

@[simp] theorem pageOf_windowAddr_of_lt (page off : Nat) (h : off < 256) : pageOf (windowAddr page off) = page := by
  simp only [windowAddr, pageOf]; omega

@[simp] theorem offsetOf_windowAddr_of_lt (page off : Nat) (h : off < 256) : offsetOf (windowAddr page off) = off := by
  simp only [windowAddr, offsetOf]; omega

theorem windowReg_cmd {off : Nat} (h : windowReg off = .cmd) : off = 0 := by
  simp only [windowReg] at h
  split at h
  · assumption
  · repeat' first | (exact absurd h (by simp)) | split at h

/-- What the host's turn can do: no engine changes but for the passing of time, or one engine is written, or one is
reset. -/
theorem State.hostTurn_cases {s t : State} (h : s.hostTurn = .next t) :
    t.engines = s.tick.engines ∨
    (∃ k e off v, s.queue.head? = some (.write (windowAddr e.page off) .w32 v) ∧ off < 256 ∧ off % 4 = 0 ∧
      s.engines[k]? = some e ∧ t.engines = s.tick.engines.set k (e.tick.written (windowReg off) v)) ∨
    (∃ k e, s.queue.head? = some (.reset e.page) ∧ s.engines[k]? = some e ∧
      t.engines = s.tick.engines.set k (e.tick.resetEvent s.draws)) := by
  simp only [State.hostTurn] at h
  split at h
  next => cases h; exact .inl rfl
  next op rest hq =>
    cases op with
    | write addr w v =>
      simp only [State.perform] at h
      obtain ⟨k, e, -, he, hp, hacc, h1, -⟩ := State.busWrite_next h
      have he' : (s.engines.map Engine.tick)[k]? = some e := he
      simp only [List.getElem?_map, Option.map_eq_some_iff] at he'
      obtain ⟨e0, he0, rfl⟩ := he'
      simp only [accessPerformed, Bool.and_eq_true, beq_iff_eq] at hacc
      refine .inr (.inl ⟨k, e0, offsetOf addr, v, ?_, Nat.mod_lt _ (by decide), hacc.2, he0, h1⟩)
      rw [Engine.tick_page] at hp
      rw [hp, windowAddr_pageOf, hq, ← hacc.1]; rfl
    | read addr w =>
      simp only [State.perform] at h
      obtain ⟨k, e, -, -, -, -, h1, -⟩ := State.busRead_next h
      exact .inl h1
    | wait page =>
      simp only [State.perform, State.waitOnce] at h
      have h1 := State.pollStatus_engines (by intro w u; split <;> rfl) h
      exact .inl h1
    | finish page =>
      simp only [State.perform, State.finishOnce] at h
      have h1 := State.pollStatus_engines (by intro w u; split <;> rfl) h
      exact .inl h1
    | reset page =>
      simp only [State.perform, State.atWindow] at h
      split at h
      next k hk =>
        obtain ⟨e, he, hp⟩ := State.findWindow_some hk
        obtain ⟨u, hu, h1, -⟩ := State.withEngine_acts (e := e) (by intro u v hv; cases hv; rfl) he h
        have hself := State.swapIn_engines _ _ e he
        have he' : (s.engines.map Engine.tick)[k]? = some e := he
        simp only [List.getElem?_map, Option.map_eq_some_iff] at he'
        obtain ⟨e0, he0, rfl⟩ := he'
        cases hu
        refine .inr (.inr ⟨k, e0, ?_, he0, ?_⟩)
        · rw [Engine.tick_page] at hp; simp [hp, hq]
        · rw [h1, State.resetSelf_self, hself, State.swapIn_draws]; rfl
      next => exact absurd h (by simp)
    | idle => cases h; exact .inl rfl

/-- **What one step can do**, from which every whole-machine claim follows. -/
theorem step_moves {s t : State} (h : step s = .next t) {k : Nat} {e : Engine} (he : s.engines[k]? = some e) :
    ∃ e', t.engines[k]? = some e' ∧ s.Moves k e e' := by
  simp only [step, State.event] at h
  split at h
  next j hj =>
    obtain ⟨ej, hej, hdue⟩ := State.dueEngine_some hj
    obtain ⟨u, hu, h1, -⟩ := State.withEngine_acts State.completeSelf_peers hej h
    cases hu
    rw [State.swapIn_engines _ _ _ hej] at h1
    by_cases hk : j = k
    · subst hk
      obtain rfl : ej = e := by rw [hej] at he; exact Option.some.inj he
      obtain ⟨hlt, -⟩ := List.getElem?_eq_some_iff.mp hej
      exact ⟨_, by rw [h1]; simp [hlt], .completes hj hdue⟩
    · exact ⟨e, by rw [h1, List.getElem?_set_ne hk, he], .stays j hj hk⟩
  next hn =>
    have htick : s.tick.engines[k]? = some e.tick := by simp [State.tick_engines, he]
    obtain ⟨hlt, -⟩ := List.getElem?_eq_some_iff.mp htick
    rcases State.hostTurn_cases h with h1 | ⟨j, ej, off, v, hq, ho, ha, hej, h1⟩ | ⟨j, ej, hq, hej, h1⟩
    · exact ⟨e.tick, by rw [h1, htick], .waits hn⟩
    · by_cases hk : j = k
      · subst hk
        obtain rfl : ej = e := by rw [hej] at he; exact Option.some.inj he
        refine ⟨_, by rw [h1, List.getElem?_set_self hlt], ?_⟩
        have hw : s.NextWrite ej.page off v := ⟨hn, hq, ho, ha⟩
        cases hr : windowReg off with
        | cmd =>
          obtain rfl := windowReg_cmd hr
          simp only [Engine.written, Engine.takeWord]
          split
          next i hi => exact .commands v i hw hi
          next x hx => exact .illegal v x hw hx
        | h i => exact .writesH off i v hw hr
        | buf i => exact .writesBuf off i v hw hr
        | _ => exact .waits hn
      · exact ⟨e.tick, by rw [h1, List.getElem?_set_ne hk, htick], .waits hn⟩
    · by_cases hk : j = k
      · subst hk
        obtain rfl : ej = e := by rw [hej] at he; exact Option.some.inj he
        exact ⟨_, by rw [h1, List.getElem?_set_self hlt], .resets ⟨hn, hq⟩⟩
      · exact ⟨e.tick, by rw [h1, List.getElem?_set_ne hk, htick], .waits hn⟩

/-- A step keeps the number of engines. -/
theorem step_engines_length {s t : State} (h : step s = .next t) : t.engines.length = s.engines.length := by
  simp only [step, State.event] at h
  split at h
  next j hj =>
    obtain ⟨ej, hej, -⟩ := State.dueEngine_some hj
    obtain ⟨u, -, h1, -⟩ := State.withEngine_acts State.completeSelf_peers hej h
    simp [h1]
  next =>
    rcases State.hostTurn_cases h with h1 | ⟨j, ej, off, v, -, -, -, -, h1⟩ | ⟨j, ej, -, -, h1⟩ <;>
      simp [h1, State.tick_engines]

end Sys2Proof.Machine
end

