-- ==== Sys2Proof/Laws/Moves.lean ====
section
/-! SUPPORT. One step's change to one engine as a flat list of cases: the command layer of `State.Moves` taken apart once,
so that each claim about a field is one `rcases` and small goals. -/

namespace Sys2Proof.Machine

theorem algOperand_eq_none_iff {a : Nat} : algOperand a = none ↔ 1 < a := by
  match a with
  | 0 => simp [algOperand]
  | 1 => simp [algOperand]
  | n + 2 => simp [algOperand]

/-- The two words of an INIT with a legal algorithm (44_driver.md R181). -/
theorem legal_init_word {c : Word} {n : Nat} {a : Alg} (h : decode c = .ok (.init n)) (ha : algOperand n = some a) :
    c = 0x00000001#32 ∨ c = 0x00000011#32 := by
  have hn : n < 2 := by
    by_contra hn
    rw [algOperand_eq_none_iff.mpr (by omega)] at ha
    cases ha
  have hlt := c.isLt
  rcases decode_cases c with h' | h' | h' | h' | h' | ⟨-, x, h'⟩
  · rw [h'.2] at h; cases h
  · rw [h'.2.2] at h
    cases h
    rw [algField_eq] at hn
    have : c.toNat = 1 ∨ c.toNat = 17 := by omega
    rcases this with h | h
    · exact .inl (BitVec.eq_of_toNat_eq h)
    · exact .inr (BitVec.eq_of_toNat_eq h)
  · rw [h'.2.2] at h; cases h
  · rw [h'.2] at h; cases h
  · rw [h'.2] at h; cases h
  · rw [h'] at h; cases h

theorem State.nextLegalInit_of_write {s : State} {p n : Nat} {c : Word} {a : Alg} (h : s.NextWrite p 0 c)
    (hd : decode c = .ok (.init n)) (ha : algOperand n = some a) : s.NextLegalInit p := by
  rcases legal_init_word hd ha with rfl | rfl
  · exact .inl h
  · exact .inr h

/-- The word of ABORT (44_driver.md R188). -/
theorem abort_word {c : Word} (h : decode c = .ok .abort) : c = 0x00000004#32 := by
  rcases decode_cases c with h' | h' | h' | h' | h' | ⟨-, x, h'⟩
  · rw [h'.2] at h; cases h
  · rw [h'.2.2] at h; cases h
  · rw [h'.2.2] at h; cases h
  · rw [h'.2] at h; cases h
  · exact h'.1
  · rw [h'] at h; cases h

theorem windowReg_h {off : Nat} {i : Fin 8} (h : windowReg off = .h i) (ha : off % 4 = 0) : off = 0x20 + 4 * i.val := by
  simp only [windowReg] at h
  repeat' first | (cases h; done) | split at h
  all_goals first | (cases h; done) | (cases h; simp; omega)

theorem windowReg_buf {off : Nat} {i : Fin 16} (h : windowReg off = .buf i) (ha : off % 4 = 0) :
    off = 0x40 + 4 * i.val := by
  simp only [windowReg] at h
  repeat' first | (cases h; done) | split at h
  all_goals first | (cases h; done) | (cases h; simp; omega)

/-- The move one step makes with an engine, from the two states. -/
theorem moves_of_step {s t : State} (h : step s = .next t) {k : Nat} {e e' : Engine} (he : s.engines[k]? = some e)
    (he' : t.engines[k]? = some e') : s.Moves k e e' := by
  obtain ⟨e'', h1, h2⟩ := step_moves h he
  rw [h1] at he'
  cases he'
  exact h2

/-- What the host's operation can make of an engine, when no completion is due: the right-hand sides are in terms of the
engine after time passed. -/
inductive State.HostChange (s : State) (e : Engine) : Engine → Prop where
  | nothing : State.HostChange s e e.tick
  | violation (hb : e.busy = true) : State.HostChange s e e.tick.recordBusyViolation
  | initLegal (hb : e.busy = false) (n : Nat) (a : Alg) (c : Word) (h : s.NextWrite e.page 0 c)
    (hd : decode c = .ok (.init n)) (ha : algOperand n = some a) : State.HostChange s e (e.tick.initLegal a)
  | initFail (hb : e.busy = false) (n : Nat) (c : Word) (h : s.NextWrite e.page 0 c) (hd : decode c = .ok (.init n))
    (hn : 1 < n) : State.HostChange s e e.tick.initFail
  | error (hb : e.busy = false) (he : e.err = false) (x : ErrCode)
    (hx : x = .badLength ∨ x = .illegalCommand ∨ (x = .wrongState ∧ e.drv ≠ .reading)) :
    State.HostChange s e (e.tick.raiseError x)
  | accept (hb : e.busy = false) (he : e.err = false) (hd : e.drv = .reading) (c : InFlight) :
    State.HostChange s e (e.tick.accept c)
  | abort (hb : e.busy = false) (he : e.err = false) (hd : e.drv = .reading) (h : s.NextWrite e.page 0 0x00000004#32) :
    State.HostChange s e e.tick.abortReading
  | writesH (hb : e.busy = false) (i : Fin 8) (v : Word) (h : s.NextWrite e.page (0x20 + 4 * i.val) v) :
    State.HostChange s e { e.tick with h := e.h.set i.val v }
  | writesBuf (hb : e.busy = false) (i : Fin 16) (v : Word) (h : s.NextWrite e.page (0x40 + 4 * i.val) v) :
    State.HostChange s e { e.tick with buf := bufWithWord i v e.buf }
  | resets (h : s.NextReset e.page) : State.HostChange s e (e.tick.resetEvent s.draws)

/-- **Every change one step can make to one engine**: none, its completion, or one of the host's changes. -/
theorem State.Moves.changes {s : State} {k : Nat} {e e' : Engine} (h : s.Moves k e e') :
    (∃ j, s.dueEngine = some j ∧ j ≠ k ∧ e' = e) ∨ (s.dueEngine = some k ∧ e.due = true ∧ e' = e.complete) ∨
      (s.dueEngine = none ∧ s.HostChange e e') := by
  cases h with
  | stays j hj hk => exact .inl ⟨j, hj, hk, rfl⟩
  | completes h hd => exact .inr (.inl ⟨h, hd, rfl⟩)
  | waits h => exact .inr (.inr ⟨h, .nothing⟩)
  | commands c i h hd =>
    refine .inr (.inr ⟨h.1, ?_⟩)
    rcases e.tick.issue_cases i with ⟨h1, h'⟩ | ⟨h1, h2, h3, h'⟩ | ⟨h1, h2, h3, h'⟩ | ⟨h1, n, a, rfl, ha, h'⟩ |
      ⟨h1, n, rfl, ha, h'⟩ | ⟨h1, h2, n, rfl, -, h'⟩ | ⟨h1, h2, h3, h4, h'⟩ | ⟨h1, h2, h3, h'⟩
    all_goals simp only [Engine.tick_busy, Engine.tick_err, Engine.tick_drv] at *
    · rw [h']; exact .violation h1
    · rw [h']; exact .nothing
    · rw [h']; exact .nothing
    · rw [h']; exact .initLegal h1 n a c h hd ha
    · rw [h']; exact .initFail h1 n c h hd (algOperand_eq_none_iff.mp ha)
    · rw [h']; exact .error h1 h2 _ (.inl rfl)
    · rw [h']; exact .error h1 h2 _ (.inr (.inr ⟨rfl, h3⟩))
    · rcases h' with ⟨n, rfl, h'⟩ | ⟨rfl, h'⟩ | ⟨rfl, h'⟩
      · rw [h']; exact .accept h1 h2 h3 _
      · rw [h']; exact .accept h1 h2 h3 _
      · obtain rfl := abort_word hd
        rw [h']; exact .abort h1 h2 h3 h
  | illegal c x h hd =>
    refine .inr (.inr ⟨h.1, ?_⟩)
    cases hb : e.busy
    · cases he : e.err
      · rw [Engine.unlessBusyOrError_of_ready _ _ (by simpa using hb) (by simpa using he)]
        exact .error hb he _ (.inr (.inl rfl))
      · rw [Engine.unlessBusyOrError_of_err _ _ (by simpa using hb) (by simpa using he)]
        exact .nothing
    · rw [Engine.unlessBusyOrError_of_busy _ _ (by simpa using hb)]
      exact .violation hb
  | writesH off i v h hr =>
    refine .inr (.inr ⟨h.1, ?_⟩)
    obtain rfl := windowReg_h hr h.2.2.2
    rcases e.tick.writeH_cases i v with ⟨hb, h'⟩ | ⟨hb, h'⟩ <;> rw [h'] <;> rw [Engine.tick_busy] at hb
    · exact .violation hb
    · rw [Engine.tick_h]; exact .writesH hb i v h
  | writesBuf off i v h hr =>
    refine .inr (.inr ⟨h.1, ?_⟩)
    obtain rfl := windowReg_buf hr h.2.2.2
    rcases e.tick.writeBuf_cases i v with ⟨hb, h'⟩ | ⟨hb, h'⟩ <;> rw [h'] <;> rw [Engine.tick_busy] at hb
    · exact .violation hb
    · rw [Engine.tick_buf]; exact .writesBuf hb i v h
  | resets h => exact .inr (.inr ⟨h.1, .resets h⟩)

end Sys2Proof.Machine
end

