-- ==== Sys2Proof/Laws/PerInstr.lean ====
section
/-! SUPPORT. Statements about every command as syntax, one lemma per constructor. The family MatchesRow: the encoding of a
well-formed command lies in its own row of spec/opcode_table.json (its bits under the row's mask are the row's match). -/

namespace Sys2Proof.Laws.MatchesRow

/-- The mask and the match of a command's row in spec/opcode_table.json. -/
def row : Instr → Word × Word
  | .nop => (0xFFFFFFFF#32, 0x00000000#32)
  | .init _ => (0xFFFFFF0F#32, 0x00000001#32)
  | .next _ => (0xFFFF80FF#32, 0x00000002#32)
  | .compress => (0xFFFFFFFF#32, 0x00000003#32)
  | .abort => (0xFFFFFFFF#32, 0x00000004#32)

/-- The encoding of the command lies in its row. -/
def Statement (i : Instr) : Prop := i.WellFormed → encode i &&& (row i).1 = (row i).2

theorem nop : Statement .nop := by intro _; decide

theorem init (alg : Nat) : Statement (.init alg) := by
  intro h
  have all : ∀ a : Fin 16, encode (.init a.val) &&& 0xFFFFFF0F#32 = 0x00000001#32 := by decide
  exact all ⟨alg, by simpa [Instr.WellFormed, Instr.wf] using h⟩

theorem next (n : Nat) : Statement (.next n) := by
  intro h
  have all : ∀ a : Fin 128, encode (.next a.val) &&& 0xFFFF80FF#32 = 0x00000002#32 := by decide
  exact all ⟨n, by simpa [Instr.WellFormed, Instr.wf] using h⟩

theorem compress : Statement .compress := by intro _; decide

theorem abort : Statement .abort := by intro _; decide

end Sys2Proof.Laws.MatchesRow
end

