-- ==== Sys2Proof/Tests/Slice0.lean ====
section
/-! SUPPORT. The model's own tests. Expected values are the spec's: the layouts of 30_encoding.md R72 written out bit by bit,
and the vectors of 95_test_vectors.md (its sections are named). Then, for every statement that has hypotheses, theorems
`witness_…` with a concrete state and operands that meet them, one for each clause. -/

namespace Sys2Proof.Tests

open Sys2Proof Sys2Proof.Machine

/-! ### States -/

/-- An engine just after INIT with `a`, its padder moved to `p`. -/
def ready (a : Alg) (p : PadState) : Engine :=
  { Engine.reset with drv := .reading, alg := a, padState := p, h := initialWords a }

/-- An engine with a command in flight and its completion due. -/
def flying (a : Alg) (p : PadState) (c : InFlight) : Engine := { ready a p with busy := true, pend := some c }

/-- An engine that finished. -/
def finished : Engine := { ready .md5 .done with drv := .finished, digestValid := true }

/-- An engine with an error recorded. -/
def failed (x : ErrCode) (e : Engine) : Engine := { e with err := true, errCode := x }

/-- An engine whose BUF holds `d` and zeros. -/
def loaded (d : List Byte) (e : Engine) : Engine := { e with buf := bytesOf 64 d }

/-- A machine of one engine whose host has the operations `ops` to do. -/
def on (e : Engine) (ops : List HostOp) : State := { State.reset with self := e, queue := ops }

/-- The step from `s` gives a next state whose engine number 0 satisfies `P`. -/
def StepsTo (s : State) (P : Engine → Prop) : Prop :=
  ∃ t, step s = .next t ∧ s.engines[0]? = some s.self ∧ t.engines[0]? = some t.self ∧ P t.self

/-- `exec i` gives a next state whose engine satisfies `P`. -/
def RunsTo (i : Instr) (e : Engine) (P : Engine → Prop) : Prop := ∃ t, exec i (on e []) = .next t ∧ P t.self

/-- The three message bytes "abc". -/
def abc : List Byte := [0x61, 0x62, 0x63]

/-! ### WellFormed (30_encoding.md R71, R73) -/

theorem test_init_16_is_ill_formed : (Instr.init 16).wf = false := by decide
theorem test_next_128_is_ill_formed : (Instr.next 128).wf = false := by decide
theorem test_widest_operands_are_well_formed : (Instr.init 15).wf = true ∧ (Instr.next 127).wf = true := by decide

/-! ### Decoding: every command's word, bit by bit from 30_encoding.md R72 -/

theorem test_decode_nop : decode 0b00000000000000000000000000000000#32 = .ok .nop := by decide
theorem test_decode_init : decode 0b00000000000000000000000010110001#32 = .ok (.init 0b1011) := by decide
theorem test_decode_next : decode 0b00000000000000000101001100000010#32 = .ok (.next 0b1010011) := by decide
theorem test_decode_compress : decode 0b00000000000000000000000000000011#32 = .ok .compress := by decide
theorem test_decode_abort : decode 0b00000000000000000000000000000100#32 = .ok .abort := by decide

/-- The ILLEGAL rows of 95_test_vectors.md 2.1. -/
theorem test_decode_illegal :
    decode 0x00000100#32 = .error .nopBitsSet ∧ decode 0x00000101#32 = .error .initBitsSet ∧
      decode 0x00008002#32 = .error .nextBitsSet ∧ decode 0x00000012#32 = .error .nextBitsSet ∧
      decode 0x00000113#32 = .error .compressBitsSet ∧ decode 0x00000005#32 = .error (.reservedOpcode 5) ∧
      decode 0xFFFFFFFF#32 = .error (.reservedOpcode 15) := by decide

/-- The bytes of NEXT 64 as the bus carries them (20_memory.md R53), and a list too short. -/
theorem test_decode_bytes :
    decodeBytes [0x02, 0x40, 0x00, 0x00, 0xFF] = .ok (.next 64, [0xFF]) ∧
      decodeBytes [0x02, 0x40, 0x00] = .error .truncated := by decide

/-- A word above 32 bits is cut to the row's bits. -/
theorem test_decode_table_word : decodeTableWord 32 0x4002 = some (.next 64) ∧ decodeTableWord 32 5 = none := by decide

/-! ### One command each (95_test_vectors.md 2.1, 2.9, 2.10, P6) -/

theorem test_nop_after_init : RunsTo .nop (ready .sha256 .reading) fun e => e.statusWord = 0x00001010#32 := by
  exact ⟨_, rfl, by decide⟩

theorem test_init_sha256 : RunsTo (.init 1) (failed .badLength finished) fun e =>
    e.statusWord = 0x00001010#32 ∧ e.errCodeWord = 0#32 ∧ e.h[0] = 0x6a09e667#32 ∧ e.h[7] = 0x5be0cd19#32 := by
  exact ⟨_, rfl, by decide⟩

theorem test_init_alg_2 : RunsTo (.init 2) (ready .sha256 .reading) fun e =>
    e.statusWord = 0x00001002#32 ∧ e.errCodeWord = 1#32 := by
  exact ⟨_, rfl, by decide⟩

theorem test_abort : RunsTo .abort (ready .sha256 .done) fun e =>
    e.statusWord = 0x00001302#32 ∧ e.errCodeWord = 2#32 := by
  exact ⟨_, rfl, by decide⟩

theorem test_next_65 : RunsTo (.next 65) Engine.reset fun e => e.errCodeWord = 4#32 := by
  exact ⟨_, rfl, by decide⟩

/-- The SHA-256 row of "abc" in 2.7: the completion of NEXT 3. -/
theorem test_next_abc_sha256 :
    ((loaded abc (flying .sha256 .reading (.next 3))).complete).h =
      #v[0xba7816bf, 0x8f01cfea, 0x414140de, 0x5dae2223, 0xb00361a3, 0x96177a9c, 0xb410ff61, 0xf20015ad] := by
  decide +kernel

/-- The MD5 row of 64 zero bytes in 2.7. -/
theorem test_compress_zero_block_md5 :
    ((flying .md5 .reading .compress).complete).h =
      #v[0x031f1dac, 0x6ea58ed0, 0x1fab67b7, 0x74317791, 0, 0, 0, 0] := by
  decide +kernel

/-- The SHA-256 row of 64 zero bytes in 2.7. -/
theorem test_compress_zero_block_sha256 :
    ((flying .sha256 .reading .compress).complete).h =
      #v[0xda5698be, 0x17b9b469, 0x62335799, 0x779fbeca, 0x8ce5d491, 0xc0d26243, 0xbafef9ea, 0x1837a9d8] := by
  decide +kernel

/-! ### Functions below the commands -/

/-- 95_test_vectors.md 2.6. -/
theorem test_word_functions :
    smallSigma0 0x12345678 = 0xe7fce6ee ∧ smallSigma1 0x12345678 = 0xa1f78649 ∧ bigSigma0 0x12345678 = 0x66146474 ∧
      bigSigma1 0x12345678 = 0x3561abda ∧ ch 0xffff0000 0x12345678 0x9abcdef0 = 0x1234def0 ∧
      maj 0x12345678 0x9abcdef0 0xfedcba98 = 0x9abcdef8 ∧ md5F 0xffff0000 0x12345678 0x9abcdef0 = 0x1234def0 ∧
      md5G 0x12345678 0x9abcdef0 0xffff0000 = 0x1234def0 ∧ md5H 0x12345678 0x9abcdef0 0xfedcba98 = 0x76543210 ∧
      md5I 0x12345678 0x9abcdef0 0xfedcba98 = 0x898b898f ∧ rotl 0x80000000 1 = 1 ∧ rotr 1 1 = 0x80000000 := by decide

/-- 95_test_vectors.md 2.3: a data block with the length, one without, and the pad-only block. -/
theorem test_padding :
    (padBlock (List.replicate 55 0x61) 440 .sha256).1.drop 54 = [0x61, 0x80, 0, 0, 0, 0, 0, 0, 0x01, 0xb8] ∧
      (padBlock (List.replicate 55 0x61) 440 .md5).1.drop 54 = [0x61, 0x80, 0xb8, 0x01, 0, 0, 0, 0, 0, 0] ∧
      (padBlock (List.replicate 63 0x61) 504 .md5) = (List.replicate 63 0x61 ++ [0x80], .onePadEmitted) ∧
      padOnlyBlock 448 .sha256 = zeros 56 ++ [0, 0, 0, 0, 0, 0, 0x01, 0xc0] ∧
      padOnlyBlock 448 .md5 = zeros 56 ++ [0xc0, 0x01, 0, 0, 0, 0, 0, 0] := by decide

/-- 95_test_vectors.md 2.8. -/
theorem test_serialize :
    (serialize #v[0x98500190, 0xb04fd23c, 0x7d3f96d6, 0x727fe128, 1, 2, 3, 4] .md5).toList =
      [0x90, 0x01, 0x50, 0x98, 0x3c, 0xd2, 0x4f, 0xb0, 0xd6, 0x96, 0x3f, 0x7d, 0x28, 0xe1, 0x7f, 0x72] ++ zeros 16 ∧
    (serialize #v[0x248d6a61, 0xd20638b8, 0, 0, 0, 0, 0, 0x19db06c1] .sha256).toList.take 8 =
      [0x24, 0x8d, 0x6a, 0x61, 0xd2, 0x06, 0x38, 0xb8] := by decide

/-- 95_test_vectors.md 2.2: the bus lanes of BUF. -/
theorem test_bus_lanes :
    StepsTo (on (ready .md5 .reading) [.write 0x40 .w32 0x00636261]) fun e =>
      e.buf.toList.take 4 = [0x61, 0x62, 0x63, 0x00] ∧ e.readReg 0 (.buf 0) = 0x00636261#32 := by
  exact ⟨_, rfl, rfl, rfl, by decide⟩

/-- 95_test_vectors.md 2.5. -/
theorem test_rom :
    Rom.shaK 0 = 0x428a2f98 ∧ Rom.shaK 63 = 0xc67178f2 ∧ Rom.md5T 0 = 0xd76aa478 ∧ Rom.md5T 63 = 0xeb86d391 ∧
      (List.range 4).map (fun i => Rom.md5S (48 + i)) = [6, 10, 15, 21] ∧
      (List.range 4).map (fun i => Rom.md5Idx (32 + i)) = [5, 8, 11, 14] := by decide

/-- P7: the write lands before the completion (dropped, BUSY_VIOLATION), or after it (performed). -/
theorem test_early_write :
    StepsTo (on { flying .sha256 .reading (.next 64) with timer := 1 } [.write 0x40 .w32 0x62626262]) (fun e =>
      e.buf[0] = 0 ∧ e.err = true ∧ e.errCode = .busyViolation ∧ e.pend = some (.next 64)) ∧
    StepsTo (on (ready .sha256 .reading) [.write 0x40 .w32 0x62626262]) fun e => e.buf[0] = 0x62 ∧ e.err = false := by
  exact ⟨⟨_, rfl, rfl, rfl, by decide⟩, ⟨_, rfl, rfl, rfl, by decide⟩⟩

/-- A command placed in the reset state runs next. -/
theorem test_placed_init : StepsTo (State.reset.withFetchWord 32 0x11) fun e => e.statusWord = 0x00001010#32 := by
  exact ⟨_, rfl, rfl, rfl, by decide⟩

/-! ### Witnesses: encoding -/

theorem witness_DecodeOfEncodeIsIdentity : (Instr.init 15).WellFormed ∧ (Instr.next 127).WellFormed := by decide

theorem witness_EncodeOfDecodeIsIdentity : decode 0x00007F02#32 = .ok (.next 127) := by decide

theorem witness_IllegalEncodings :
    State.reset.Ready ∧ illegalWord 0x00000005#32 ∧ illegalWord 0xFFFFFFFF#32 ∧ illegalWord 0x00000010#32 ∧
      illegalWord 0x00000101#32 ∧ illegalWord 0x80000001#32 ∧ illegalWord 0x00000012#32 ∧ illegalWord 0x00008002#32 ∧
      illegalWord 0x00000013#32 ∧ illegalWord 0x80000004#32 ∧ ¬ illegalWord 0x000000F1#32 ∧
      ¬ illegalWord 0x00007F02#32 :=
  ⟨by decide, by decide, by decide, by decide, by decide, by decide, by decide, by decide, by decide, by decide,
    by decide, by decide⟩

theorem next3_no_init (a : Nat) : decode 0x00000302#32 ≠ .ok (.init a) := by
  rw [show decode 0x00000302#32 = .ok (.next 3) by decide]
  simp

/-- Each clause of CommandWritePriority, the counts 64 and 65 at the edge. -/
theorem witness_CommandWritePriority :
    ((on (flying .md5 .done .compress) []).self.busy = true ∧ (on (flying .md5 .done .compress) []).self.err = false) ∧
    ((on (failed .busyViolation (flying .md5 .done .compress)) []).self.busy = true ∧
      (on (failed .busyViolation (flying .md5 .done .compress)) []).self.err = true) ∧
    ((on (failed .badLength (ready .md5 .reading)) []).self.busy = false ∧
      (on (failed .badLength (ready .md5 .reading)) []).self.err = true ∧ ∀ a, decode 0x00000302#32 ≠ .ok (.init a)) ∧
    (State.reset.Ready ∧ ∀ i, decode 0x00000005#32 ≠ .ok i) ∧
    (decode 0x00004102#32 = .ok (.next 65) ∧ 64 < 65) ∧
    (decode 0x00000021#32 = .ok (.init 2) ∧ 1 < 2) ∧
    (State.reset.self.drv ≠ .reading ∧ 64 ≤ 64 ∧ decode 0x00004002#32 = .ok (.next 64) ∧
      decode 0x00000003#32 = .ok .compress ∧ decode 0x00000004#32 = .ok .abort) := by
  refine ⟨by decide, by decide, ⟨by decide, by decide, next3_no_init⟩, ⟨by decide, ?_⟩, by decide, by decide, by decide⟩
  intro i
  rw [show decode 0x00000005#32 = .error (.reservedOpcode 5) by decide]
  simp

theorem witness_CommandFrame :
    (∀ a, Instr.compress ≠ .init a) ∧ (∀ a, Instr.next 64 ≠ .init a) ∧ (∀ a, Instr.abort ≠ .init a) ∧
      (∀ a, Instr.nop ≠ .init a) := by simp

theorem witness_ErrorGatesCommandsOnly :
    (on (failed .badLength (ready .md5 .reading)) []).self.busy = false ∧
      (on (failed .badLength (ready .md5 .reading)) []).self.err = true ∧
      (∀ a, decode 0x00000302#32 ≠ .ok (.init a)) ∧ WindowReg.digest 7 ≠ .status ∧ WindowReg.digest 7 ≠ .errcode := by
  exact ⟨by decide, by decide, next3_no_init, by decide, by decide⟩

theorem witness_BusyWritesAreDropped :
    (on (flying .md5 .reading .compress) []).self.busy = true ∧
      (on (flying .md5 .reading .compress) []).self.err = false ∧
      (on (failed .busyViolation (flying .md5 .reading .compress)) []).self.err = true ∧
      windowReg 0x00 = .cmd ∧ windowReg 0x3C = .h 7 ∧ windowReg 0x7C = .buf 15 := by decide

/-! ### Witnesses: the commands -/

theorem witness_NopDoesNothing :
    (on finished []).self.busy = false ∧ (on finished []).Ready ∧ opField 0x80000000#32 = 0 ∧ 0x80000000#32 ≠ 0#32 := by
  decide

theorem witness_InitStartsComputation :
    (on (failed .sourceReadError (ready .md5 .done)) []).self.busy = false ∧ 1 < 2 ∧ 1 < 15 ∧ State.reset.Ready ∧
      opField 0x00000101#32 = 1 ∧ (0x00000101#32).extractLsb' 8 24 ≠ 0 := by decide

theorem witness_AbortAbandonsComputation :
    ((on (ready .md5 .onePadEmitted) []).Ready ∧ (on (ready .md5 .onePadEmitted) []).self.drv = .reading) ∧
    ((on (flying .md5 .reading .compress) []).self.busy = true ∧
      (on (flying .md5 .reading .compress) []).self.err = false) ∧
    (State.reset.Ready ∧ State.reset.self.drv ≠ .reading) ∧ ((on finished []).Ready ∧
      (on finished []).self.drv ≠ .reading) := by decide

theorem witness_NextChecksCountThenDriver :
    State.reset.Ready ∧ 64 < 65 ∧ 64 ≤ 64 ∧ State.reset.self.drv ≠ .reading := by decide

theorem witness_NextFoldsPaddedDataBlock :
    (on (ready .sha256 .reading) []).Ready ∧ (on (ready .sha256 .reading) []).self.drv = .reading ∧
      (on (ready .sha256 .reading) []).self.padState = .reading := by decide

theorem witness_NextFoldsPadOnlyBlock :
    (on (ready .md5 .onePadEmitted) []).Ready ∧ (on (ready .md5 .onePadEmitted) []).self.drv = .reading ∧
      (on (ready .md5 .onePadEmitted) []).self.padState = .onePadEmitted := by decide

theorem witness_NextCommitsDigest :
    ((on (ready .md5 .done) []).Ready ∧ (on (ready .md5 .done) []).self.drv = .reading ∧
      (on (ready .md5 .done) []).self.padState = .done ∧ (on (ready .md5 .done) []).self.alg = .md5) ∧
    (on (ready .sha256 .done) []).self.alg = .sha256 ∧
    ((on finished []).Ready ∧ (on finished []).self.drv = .finished ∧ 64 ≤ 64) := by decide

/-- Byte 2 is the last the command names, byte 3 differs. -/
theorem witness_CompletionReadsOnlyNamedBytes :
    (loaded abc (flying .md5 .reading (.next 3))).pend = some (.next 3) ∧
    (∀ j : Fin 64, j.val < 3 → (bytesOf 64 (abc ++ [0xFF]))[j] = (loaded abc (flying .md5 .reading (.next 3))).buf[j]) ∧
    (bytesOf 64 (abc ++ [0xFF]))[3] ≠ (loaded abc (flying .md5 .reading (.next 3))).buf[3] := by decide

theorem witness_CompressFoldsBuffer :
    ((on (ready .md5 .done) []).Ready ∧ (on (ready .md5 .done) []).self.drv = .reading) ∧
    ((on finished []).Ready ∧ (on finished []).self.drv ≠ .reading) := by decide

theorem witness_DriverLoop : (failed .badLength Engine.reset).busy = false := by decide

/-! ### Witnesses: errors across a step -/

/-- FirstErrorIsKept's three ways: a legal INIT, the reset signal, a failed INIT; and ErrorsClearedOnlyByResetAndInit's. -/
theorem witness_FirstErrorIsKept :
    StepsTo (on (failed .badLength (ready .md5 .reading)) [cmdWrite 0 0x00000011#32]) (fun e =>
      e.err = false ∧ e.errCode = .none) ∧
    StepsTo (on (failed .badLength (ready .md5 .reading)) [.reset 0]) (fun e => e.err = false ∧ e.errCode = .none) ∧
    StepsTo (on (failed .badLength (ready .md5 .reading)) [cmdWrite 0 0x000000F1#32]) fun e =>
      e.err = true ∧ e.errCode = .invalidConfiguration :=
  ⟨⟨_, rfl, rfl, rfl, by decide⟩, ⟨_, rfl, rfl, rfl, rfl, rfl⟩, ⟨_, rfl, rfl, rfl, by decide⟩⟩

theorem witness_ErrorsClearedOnlyByResetAndInit :
    (on (failed .badLength (ready .md5 .reading)) [cmdWrite 0 0x00000001#32]).dueEngine = none ∧
    (on (failed .badLength (ready .md5 .reading)) [cmdWrite 0 0x00000001#32]).self.busy = false ∧
    (on (failed .badLength (ready .md5 .reading)) [cmdWrite 0 0x00000001#32]).queue = [cmdWrite 0 0x00000001#32] ∧
    (on (flying .md5 .done .compress) [.reset 0]).queue = [.reset 0] ∧
    (on { flying .md5 .done .compress with timer := 1 } [.reset 0]).dueEngine = none := by decide

/-! ### Witnesses: the padder, the counter, the driver, the digest across a step -/

/-- PADSTATE's ways: INIT, the counts 55, 56 and 63 in READING, the pad-only block. -/
theorem witness_PadStateMovesOnlyAlongTable :
    StepsTo (on (ready .md5 .done) [cmdWrite 0 0x00000001#32]) (fun e => e.padState = .reading) ∧
    StepsTo (on (flying .md5 .reading (.next 55)) []) (fun e => e.padState = .done) ∧
    StepsTo (on (flying .md5 .reading (.next 56)) []) (fun e => e.padState = .onePadEmitted) ∧
    StepsTo (on (flying .md5 .reading (.next 63)) []) (fun e => e.padState = .onePadEmitted) ∧
    StepsTo (on (flying .md5 .onePadEmitted (.next 64)) []) (fun e => e.padState = .done) :=
  ⟨⟨_, rfl, rfl, rfl, rfl⟩, ⟨_, rfl, rfl, rfl, by decide⟩, ⟨_, rfl, rfl, rfl, by decide⟩,
    ⟨_, rfl, rfl, rfl, by decide⟩, ⟨_, rfl, rfl, rfl, by decide⟩⟩

/-- BITCOUNT's ways: INIT, and NEXT 1 at the wrap of 95_test_vectors.md 2.12. -/
theorem witness_BitCountLaw :
    StepsTo (on { ready .md5 .done with bitCount := 8 } [cmdWrite 0 0x00000011#32]) (fun e => e.bitCount = 0) ∧
    StepsTo (on { flying .md5 .reading (.next 1) with bitCount := 0xFFFFFFFFFFFFFFF8 } []) (fun e => e.bitCount = 0) ∧
    State.reset.self.busy = false ∧ ({ ready .md5 .done with bitCount := 0x100000008 } : Engine).busy = false ∧
    (flying .md5 .reading (.next 64)).pend = some (.next 64) ∧ (flying .md5 .reading (.next 64)).padState = .reading :=
  ⟨⟨_, rfl, rfl, rfl, by decide⟩, ⟨_, rfl, rfl, rfl, by decide⟩, rfl, rfl, rfl, rfl⟩

/-- DRV's ways: reset, INIT, a failed INIT, ABORT, the committing NEXT; each from an engine of the invariant. -/
theorem witness_DriverMovesOnlyAlongTable :
    (ready .md5 .reading).Inv ∧ finished.Inv ∧ (flying .md5 .done (.next 0)).Inv ∧
    StepsTo (on (ready .md5 .reading) [.reset 0]) (fun e => e.drv = .init) ∧
    StepsTo (on finished [cmdWrite 0 0x00000011#32]) (fun e => e.drv = .reading ∧ e.alg = .sha256) ∧
    StepsTo (on finished [cmdWrite 0 0x00000021#32]) (fun e => e.drv = .init) ∧
    StepsTo (on (ready .md5 .reading) [cmdWrite 0 0x00000004#32]) (fun e => e.drv = .init) ∧
    StepsTo (on (flying .md5 .done (.next 0)) []) fun e => e.drv = .finished :=
  ⟨by decide, by decide, by decide, ⟨_, rfl, rfl, rfl, rfl⟩, ⟨_, rfl, rfl, rfl, by decide⟩, ⟨_, rfl, rfl, rfl, by decide⟩,
    ⟨_, rfl, rfl, rfl, by decide⟩, ⟨_, rfl, rfl, rfl, by decide⟩⟩

theorem witness_BufferWrittenOnlyByHost :
    StepsTo (on (ready .md5 .reading) [.write 0x7C .w32 0xFF000000#32]) fun e =>
      e.buf[63] = 0xFF ∧ (ready .md5 .reading).buf[63] ≠ e.buf[63] := by
  exact ⟨_, rfl, rfl, rfl, by decide⟩

/-- H's ways: INIT, a host write of H[7], a completion. -/
theorem witness_ChainingStateWrites :
    StepsTo (on (ready .md5 .reading) [cmdWrite 0 0x00000011#32]) (fun e => e.h[7] ≠ (ready .md5 .reading).h[7]) ∧
    StepsTo (on (ready .md5 .reading) [.write 0x3C .w32 5]) (fun e => e.h[7] = 5) ∧
    (flying .md5 .reading .compress).Inv ∧
    StepsTo (on (flying .md5 .reading .compress) []) fun e => e.h[0] ≠ (flying .md5 .reading .compress).h[0] :=
  ⟨⟨_, rfl, rfl, rfl, by decide⟩, ⟨_, rfl, rfl, rfl, by decide⟩, by decide, ⟨_, rfl, rfl, rfl, by decide +kernel⟩⟩

/-- DIGEST's ways: the committing NEXT, and INIT after it. -/
theorem witness_DigestWrittenOnlyByCommitAndInit :
    StepsTo (on (flying .md5 .done (.next 0)) []) (fun e => e.digest[0] = 0x01) ∧
    StepsTo (on { finished with digest := Vector.replicate 32 7 } [cmdWrite 0 0x00000001#32]) fun e =>
      e.digest = Vector.replicate 32 0 :=
  ⟨⟨_, rfl, rfl, rfl, by decide⟩, ⟨_, rfl, rfl, rfl, by decide⟩⟩

/-! ### Witnesses: commands in flight -/

theorem witness_InFlightInputsAreFrozen :
    ((on (ready .md5 .reading) []).Ready ∧ (on (ready .md5 .reading) []).self.drv = .reading) ∧
    (on { flying .md5 .reading .compress with timer := 1 } [.write 0x20 .w32 5]).dueEngine ≠ some 0 ∧
    ¬ (on { flying .md5 .reading .compress with timer := 1 } [.write 0x20 .w32 5]).NextReset 0 ∧
    StepsTo (on { flying .md5 .reading .compress with timer := 1 } [.write 0x20 .w32 5]) fun e => e.busy = true :=
  ⟨by decide, by decide, by decide, ⟨_, rfl, rfl, rfl, by decide⟩⟩

theorem witness_CompletionIsOneStep :
    ((on (flying .md5 .reading (.next 64)) []).self.due = true ∧
      (on (flying .md5 .reading (.next 64)) []).self.pend = some (.next 64)) ∧
    ((on (flying .md5 .done .compress) []).self.due = true ∧
      (on (flying .md5 .done .compress) []).self.pend = some .compress) := by decide

theorem witness_WaitEnds :
    ((on (ready .md5 .reading) [.wait 0]).self.busy = (on (ready .md5 .reading) [.wait 0]).self.pend.isSome ∧
      (∀ p ∈ (on (ready .md5 .reading) [.wait 0]).peers, p.pend = none) ∧
      (on (ready .md5 .reading) [.wait 0]).queue = [.wait 0] ∧ (on (ready .md5 .reading) [.wait 0]).self.pend = none) ∧
    ((on { flying .md5 .reading .compress with timer := 2 } [.wait 0]).self.busy =
        (on { flying .md5 .reading .compress with timer := 2 } [.wait 0]).self.pend.isSome ∧
      (on { flying .md5 .reading .compress with timer := 2 } [.wait 0]).self.pend ≠ none) := by decide

/-! ### Witnesses: the window, the step, reset -/

/-- One access of each kind of register, at the ends of its range. -/
theorem witness_IdleReadsGiveRegisterValues :
    (on (ready .md5 .reading) [.read 0xFC .w32]).dueEngine = none ∧
    (on (ready .md5 .reading) [.read 0xFC .w32]).self.busy = false ∧ 0xFC < 256 ∧ 0xFC % 4 = 0 ∧
    (on (ready .md5 .reading) [.read 0xFC .w32]).queue = [.read (windowAddr 0 0xFC) .w32] ∧
    windowReg 0x00 = .cmd ∧ windowReg 0x04 = .status ∧ windowReg 0x08 = .errcode ∧ windowReg 0x10 = .bitCountLo ∧
    windowReg 0x14 = .bitCountHi ∧ windowReg 0x20 = .h 0 ∧ windowReg 0x3C = .h 7 ∧ windowReg 0x40 = .buf 0 ∧
    windowReg 0x7C = .buf 15 ∧ windowReg 0x80 = .digest 0 ∧ windowReg 0x9C = .digest 7 ∧ windowReg 0xA0 = .reserved ∧
    windowReg 0xFC = .reserved := by decide

theorem witness_ReadOnlyWritesIgnored :
    windowReg 0x04 = .status ∧ windowReg 0x08 = .errcode ∧ windowReg 0x10 = .bitCountLo ∧ windowReg 0x14 = .bitCountHi ∧
      windowReg 0x80 = .digest 0 ∧ windowReg 0x9C = .digest 7 ∧ windowReg 0x0C = .reserved := by decide

theorem witness_BusyReads : (flying .sha256 .reading (.next 64)).busy = true := by decide

theorem witness_HostWritesTakeEffect : (on (failed .sourceReadError Engine.reset) []).self.busy = false := by decide

theorem witness_UnperformedAccessRefused :
    (on Engine.reset [.write 0x42 .w32 0]).dueEngine = none ∧
    (∃ e ∈ (on Engine.reset [.write 0x42 .w32 0]).engines, e.page = pageOf 0x42) ∧
    (AccessWidth.w32 ≠ .w32 ∨ offsetOf 0x42 % 4 ≠ 0) ∧ (AccessWidth.w16 ≠ .w32 ∨ offsetOf 0x40 % 4 ≠ 0) := by
  refine ⟨by decide, ⟨_, List.mem_cons_self, rfl⟩, by decide, by decide⟩

/-- A fault and a refusal do occur. -/
theorem witness_StopsOnlyAtHostAccesses :
    step (on Engine.reset [.read 0x100 .w32]) = .fault .outsideWindow ∧
    step (on Engine.reset [.read 0x04 .w16]) = .refused .accessNotPerformed := ⟨rfl, rfl⟩

theorem witness_ResetEventLeavesResetValues :
    (on { flying .md5 .reading .compress with timer := 1 } [.reset 0]).dueEngine = none ∧
    (on { flying .md5 .reading .compress with timer := 1 } [.reset 0]).queue = [.reset 0] := by decide

theorem witness_IdleMachineKeepsState :
    (on finished []).queue = [] ∧ ∀ e ∈ (on finished []).engines, e.pend = none := by decide

/-- Two engines: number 1's completion, and a write to number 1, leave number 0. -/
theorem witness_EnginesAreIsolated :
    (∃ t, step { on (ready .md5 .reading) [] with peers := [{ flying .md5 .done .compress with page := 1 }] } = .next t ∧
      State.dueEngine { on (ready .md5 .reading) [] with peers := [{ flying .md5 .done .compress with page := 1 }] } =
        some 1 ∧ t.self = ready .md5 .reading) ∧
    (∃ t, step { on (ready .md5 .reading) [.write 0x120 .w32 5] with peers := [{ finished with page := 1 }] } = .next t ∧
      (ready .md5 .reading).page ≠ pageOf 0x120 ∧ t.self = ready .md5 .reading) :=
  ⟨⟨_, rfl, rfl, rfl⟩, ⟨_, rfl, by decide, rfl⟩⟩

theorem witness_HiddenStorageIsUnobservable :
    (on { ready .md5 .done with scratch := { Scratch.zero with round := 64 } } []).hide = (on (ready .md5 .done) []).hide ∧
      on { ready .md5 .done with scratch := { Scratch.zero with round := 64 } } [] ≠ on (ready .md5 .done) [] := by
  decide

theorem witness_StepRunsDecodedCommand :
    (on Engine.reset [cmdWrite 0 0x00004002#32]).dueEngine = none ∧
    (on Engine.reset [cmdWrite 0 0x00004002#32]).queue = [cmdWrite 0 0x00004002#32] ∧
    decode 0x00004002#32 = .ok (.next 64) := by decide

theorem witness_PlacedCommandRunsNext : decodeTableWord 32 0x00000003 = some .compress := by decide

theorem witness_StepKeepsInvariant :
    (on (flying .md5 .reading .compress) []).Inv ∧
    StepsTo (on (flying .md5 .reading .compress) []) fun e => e.busy = false :=
  ⟨by decide, ⟨_, rfl, rfl, rfl, by decide⟩⟩

theorem witness_RotationsBitwise : (1 ≤ 1 ∧ 1 ≤ 31 ∧ 0 < 32) ∧ (1 ≤ 31 ∧ 31 ≤ 31 ∧ 31 < 32) := by decide

theorem witness_Md5UsesFourWordsOnly :
    (4 : Nat) ≤ (4 : Fin 8).val ∧ (4 : Nat) ≤ (7 : Fin 8).val ∧ (on (ready .md5 .reading) []).self.busy = false ∧
    (∀ k : Fin 8, k.val < 4 → (initialWords .md5)[k] = (initialWords .md5 |>.set 4 9)[k]) := by decide

theorem witness_Sha256Rounds : 16 ≤ 16 ∧ 16 < 64 ∧ 16 ≤ 63 ∧ 63 < 64 := by decide

theorem witness_PaddedStreamShape :
    abc.length < 55 ∧ 55 < (paddedStream abc .md5).length - 8 := by decide

theorem witness_WindowMap : 0xA0 ≤ 0xA0 ∧ 0xA0 ≤ 0xFC := by decide

theorem witness_AfterResetOnlyInitStarts :
    (Instr.next 64 = .compress ∨ Instr.next 64 = .abort ∨ ∃ n, n ≤ 64 ∧ Instr.next 64 = .next n) :=
  .inr (.inr ⟨64, by decide, rfl⟩)

end Sys2Proof.Tests
end

section
/-! SUPPORT. The invariant of an engine, kept by each operation on it (10_state.md R28, R30, R34, R35;
40_padder.md R102; 44_driver.md R185; 60_exceptions.md R227), and from that by every step. -/

namespace Sys2Proof.Machine

/-! ### What a busy violation, a completion and a host's change leave unchanged -/

@[simp] theorem Engine.recordBusyViolation_h (e : Engine) : e.recordBusyViolation.h = e.h := by
  rcases e.recordBusyViolation_cases with ⟨-, h⟩ | ⟨-, h⟩ <;> rw [h]
@[simp] theorem Engine.recordBusyViolation_buf (e : Engine) : e.recordBusyViolation.buf = e.buf := by
  rcases e.recordBusyViolation_cases with ⟨-, h⟩ | ⟨-, h⟩ <;> rw [h]
@[simp] theorem Engine.recordBusyViolation_bitCount (e : Engine) : e.recordBusyViolation.bitCount = e.bitCount := by
  rcases e.recordBusyViolation_cases with ⟨-, h⟩ | ⟨-, h⟩ <;> rw [h]
@[simp] theorem Engine.recordBusyViolation_page (e : Engine) : e.recordBusyViolation.page = e.page := by
  rcases e.recordBusyViolation_cases with ⟨-, h⟩ | ⟨-, h⟩ <;> rw [h]

@[simp] theorem Engine.resetEvent_page (d : Nat) (e : Engine) : (e.resetEvent d).page = e.page := rfl
@[simp] theorem Engine.resetEvent_bitCount (d : Nat) (e : Engine) : (e.resetEvent d).bitCount = 0 := rfl

/-- A completion reads BUF and does not write it (10_state.md R23). -/
@[simp] theorem Engine.complete_buf (e : Engine) : e.complete.buf = e.buf := by
  rcases e.complete_cases with ⟨-, h⟩ | ⟨n, -, -, h⟩ | ⟨n, -, -, h⟩ | ⟨n, -, -, h⟩ | ⟨-, h⟩ <;> rw [h] <;> rfl

@[simp] theorem Engine.complete_page (e : Engine) : e.complete.page = e.page := by
  rcases e.complete_cases with ⟨-, h⟩ | ⟨n, -, -, h⟩ | ⟨n, -, -, h⟩ | ⟨n, -, -, h⟩ | ⟨-, h⟩ <;> rw [h] <;> rfl

theorem State.HostChange.page_eq {s : State} {e e' : Engine} (h : s.HostChange e e') : e'.page = e.page := by
  cases h <;> simp

/-- BASE is the platform's: no step moves a window (20_memory.md R51). -/
theorem State.Moves.page_eq {s : State} {k : Nat} {e e' : Engine} (h : s.Moves k e e') : e'.page = e.page := by
  rcases h.changes with ⟨j, -, -, rfl⟩ | ⟨-, -, rfl⟩ | ⟨-, h⟩
  · rfl
  · simp
  · exact h.page_eq

/-! ### The invariant, operation by operation -/

/-- Adding whole bytes keeps the count of bits a multiple of 8 (40_padder.md R102). -/
theorem wholeBytes_add {bc : BitVec 64} (n : Nat) (h : bc.extractLsb' 0 3 = 0) :
    (bc + BitVec.ofNat 64 (8 * n)).extractLsb' 0 3 = 0 := by
  rw [← BitVec.toNat_inj] at h ⊢
  simp only [BitVec.extractLsb'_toNat, BitVec.toNat_add, BitVec.toNat_ofNat, Nat.shiftRight_zero] at h ⊢
  omega

namespace Engine.Inv
variable {e : Engine}

theorem pend_of_idle (h : e.Inv) (hb : e.busy = false) : e.pend = none := by
  obtain ⟨-, hbusy, -⟩ := h
  have hsome : e.pend.isSome = false := hbusy.symm.trans hb
  simpa using hsome

/-- A command in flight was accepted in READING (44_driver.md R185). -/
theorem drv_of_pend (h : e.Inv) {c : InFlight} (hp : e.pend = some c) : e.drv = .reading := by
  obtain ⟨-, -, hpend, -⟩ := h
  exact hpend (by simp [hp])

theorem busy_of_pend (h : e.Inv) {c : InFlight} (hp : e.pend = some c) : e.busy = true := by
  obtain ⟨-, hbusy, -⟩ := h
  exact hbusy.trans (by rw [hp]; rfl)

theorem wholeBytes (h : e.Inv) : e.WholeBytes := by
  obtain ⟨-, -, -, hwhole, -⟩ := h
  exact hwhole

theorem tick (h : e.Inv) : e.tick.Inv := by
  obtain ⟨n, hn⟩ := e.tick_eq
  rw [hn]; exact h

/-- No clause speaks of H or of the hidden storage. -/
theorem compress (h : e.Inv) (b : Vector Byte 64) : (e.compress b).Inv := h

theorem raiseError (h : e.Inv) {c : ErrCode} (hc : c ≠ .none) (hp : e.pend ≠ none → c = .busyViolation)
    (hf : c = .invalidConfiguration ∨ c = .sourceReadError → e.drv = .init)
    (hw : c = .wrongState → e.drv ≠ .reading) : (e.raiseError c).Inv := by
  obtain ⟨-, hbusy, hpend, hwhole, hvalid, hfin, hzero, -, -, -, htail⟩ := h
  exact ⟨by simp [Engine.ErrCodeAgrees, hc], hbusy, hpend, hwhole, hvalid, hfin, hzero, hf, hw, fun h' _ => hp h',
    htail⟩

theorem recordBusyViolation (h : e.Inv) : e.recordBusyViolation.Inv := by
  rcases e.recordBusyViolation_cases with ⟨-, h'⟩ | ⟨-, h'⟩ <;> rw [h']
  · exact h
  · exact h.raiseError (c := .busyViolation) (by simp) (fun _ => rfl) (by simp) (by simp)

theorem initLegal (h : e.Inv) (hp : e.pend = none) (a : Alg) : (e.initLegal a).Inv := by
  obtain ⟨-, hbusy, -⟩ := h
  exact ⟨by simp [Engine.ErrCodeAgrees], hbusy, fun _ => rfl, rfl, by simp [Engine.ValidWhenFinished],
    by simp [Engine.FinishedDone], fun _ => rfl, by simp [Engine.FatalInInit], by simp [Engine.WrongStateOutside],
    fun h' => absurd hp h', by simp [Engine.Md5DigestTail]⟩

/-- The driver goes back to INIT with an idle engine, as a failed INIT and an ABORT make it. -/
theorem toInit (h : e.Inv) (hp : e.pend = none) : { e with drv := .init, digestValid := false }.Inv := by
  obtain ⟨herr, hbusy, -, hwhole, -⟩ := h
  exact ⟨herr, hbusy, fun h' => absurd hp h', hwhole, by simp [Engine.ValidWhenFinished],
    by simp [Engine.FinishedDone], by simp [Engine.ReadingDigestZero], fun _ => rfl,
    by simp [Engine.WrongStateOutside], fun h' => absurd hp h', by simp [Engine.Md5DigestTail]⟩

theorem initFail (h : e.Inv) (hp : e.pend = none) : e.initFail.Inv :=
  (h.toInit hp).raiseError (by simp) (fun h' => absurd hp h') (fun _ => rfl) (by simp)

theorem abortReading (h : e.Inv) (hp : e.pend = none) : e.abortReading.Inv :=
  (h.toInit hp).raiseError (by simp) (fun h' => absurd hp h') (fun _ => rfl) (by simp)

theorem accept (h : e.Inv) (he : e.err = false) (hd : e.drv = .reading) (c : InFlight) : (e.accept c).Inv := by
  obtain ⟨herr, -, -, hwhole, hvalid, hfin, hzero, hfatal, hwrong, -, htail⟩ := h
  exact ⟨herr, rfl, fun _ => hd, hwhole, hvalid, hfin, hzero, hfatal, hwrong,
    by simp [Engine.BusyErrorOnly, he], htail⟩

theorem retire (h : e.Inv) : e.retire.Inv := by
  obtain ⟨herr, -, -, hwhole, hvalid, hfin, hzero, hfatal, hwrong, -, htail⟩ := h
  exact ⟨herr, rfl, fun h' => absurd rfl h', hwhole, hvalid, hfin, hzero, hfatal, hwrong,
    fun h' => absurd rfl h', htail⟩

/-- In READING the padder may move and whole bytes may be counted. -/
theorem padded (h : e.Inv) (hd : e.drv = .reading) {bc : BitVec 64} (hbc : bc.extractLsb' 0 3 = 0) (p : PadState) :
    { e with bitCount := bc, padState := p }.Inv := by
  obtain ⟨herr, hbusy, hpend, -, hvalid, -, hzero, hfatal, hwrong, honly, htail⟩ := h
  exact ⟨herr, hbusy, hpend, hbc, hvalid, by simp [Engine.FinishedDone, hd], hzero, hfatal, hwrong, honly, htail⟩

theorem nextData (h : e.Inv) (hd : e.drv = .reading) (n : Nat) : (e.nextData n).Inv :=
  (h.compress _).padded hd (wholeBytes_add n h.wholeBytes) _

theorem nextPadOnly (h : e.Inv) (hd : e.drv = .reading) : e.nextPadOnly.Inv :=
  (h.compress _).padded hd h.wholeBytes _

/-- The commit is the only way into FINISHED, and it needs the padder DONE. -/
theorem digestCommit (h : e.Inv) (hp : e.pend = none) (hd : e.drv = .reading) (hs : e.padState = .done) :
    e.digestCommit.Inv := by
  obtain ⟨herr, hbusy, -, hwhole, -, -, -, hfatal, -⟩ := h
  have hnot : ¬ (e.errCode = .invalidConfiguration ∨ e.errCode = .sourceReadError) := fun h' => by
    simpa [hd] using hfatal h'
  refine ⟨herr, hbusy, fun h' => absurd hp h', hwhole, by simp [Engine.ValidWhenFinished], fun _ => hs,
    by simp [Engine.ReadingDigestZero], fun h' => absurd h' hnot, by simp [Engine.WrongStateOutside],
    fun h' => absurd hp h', fun _ ha => ?_⟩
  simp only [Engine.digestCommit_alg] at ha
  simp only [Engine.digestCommit_digest, ha, serialize_md5_tail]

theorem resetEvent (e : Engine) (d : Nat) : (e.resetEvent d).Inv := by
  exact ⟨by simp [Engine.resetEvent, Engine.ErrCodeAgrees], rfl, fun h => absurd rfl h, rfl,
    by simp [Engine.resetEvent, Engine.ValidWhenFinished], by simp [Engine.resetEvent, Engine.FinishedDone],
    fun _ => rfl, fun _ => rfl, by simp [Engine.resetEvent, Engine.WrongStateOutside], fun h => absurd rfl h,
    by simp [Engine.resetEvent, Engine.Md5DigestTail]⟩

theorem complete (h : e.Inv) : e.complete.Inv := by
  rcases e.complete_cases with ⟨-, h'⟩ | ⟨n, hp, -, h'⟩ | ⟨n, hp, -, h'⟩ | ⟨n, hp, hs, h'⟩ | ⟨hp, h'⟩ <;> rw [h']
  · exact h
  · exact (h.nextData (h.drv_of_pend hp) n.val).retire
  · exact (h.nextPadOnly (h.drv_of_pend hp)).retire
  · exact h.retire.digestCommit rfl (h.drv_of_pend hp) hs
  · exact (h.compress _).retire

theorem hostChange {s : State} {e' : Engine} (h : e.Inv) (hc : s.HostChange e e') : e'.Inv := by
  have ht := h.tick
  have hidle : e.busy = false → e.tick.pend = none := fun hb => by simpa using h.pend_of_idle hb
  cases hc with
  | nothing => exact ht
  | violation _ => exact ht.recordBusyViolation
  | initLegal hb n a => exact ht.initLegal (hidle hb) a
  | initFail hb => exact ht.initFail (hidle hb)
  | error hb he x hx =>
    have hp : e.tick.pend ≠ none → x = .busyViolation := fun h' => absurd (hidle hb) h'
    rcases hx with rfl | rfl | ⟨rfl, hd⟩
    · exact ht.raiseError (by simp) hp (by simp) (by simp)
    · exact ht.raiseError (by simp) hp (by simp) (by simp)
    · exact ht.raiseError (by simp) hp (by simp) (by simpa using hd)
  | accept hb he hd c => exact ht.accept (by simpa using he) (by simpa using hd) c
  | abort hb => exact ht.abortReading (hidle hb)
  | writesH => exact ht
  | writesBuf => exact ht
  | resets => exact .resetEvent _ _

theorem moves {s : State} {k : Nat} {e' : Engine} (h : e.Inv) (hm : s.Moves k e e') : e'.Inv := by
  rcases hm.changes with ⟨j, -, -, rfl⟩ | ⟨-, -, rfl⟩ | ⟨-, hc⟩
  · exact h
  · exact h.complete
  · exact h.hostChange hc

end Engine.Inv

/-! ### The invariant of the machine -/

/-- Every engine after a step is what the step made of the engine of its number. -/
theorem moves_of_mem {s t : State} (h : step s = .next t) {e' : Engine} (he' : e' ∈ t.engines) :
    ∃ k, ∃ e ∈ s.engines, s.Moves k e e' := by
  obtain ⟨k, hk, rfl⟩ := List.getElem_of_mem he'
  have hk' : k < s.engines.length := step_engines_length h ▸ hk
  exact ⟨k, s.engines[k], List.getElem_mem hk', moves_of_step h (by simp [hk']) (by simp [hk])⟩

theorem step_pages {s t : State} (h : step s = .next t) : t.engines.map Engine.page = s.engines.map Engine.page := by
  apply List.ext_getElem
  · simp [step_engines_length h]
  · intro k hk hk'
    simp only [List.length_map] at hk hk'
    simpa using (moves_of_step h (List.getElem?_eq_getElem hk') (List.getElem?_eq_getElem hk)).page_eq

/-- Settles O58: each engine is changed by one of the moves of `State.Moves`, each of which keeps `Engine.Inv`, and none
of which moves a window. -/
theorem stepKeepsInvariant : Obligations.StepKeepsInvariant := by
  unfold Obligations.StepKeepsInvariant
  intro s t ⟨hinv, hpages⟩ h
  refine ⟨fun e' he' => ?_, by rwa [step_pages h]⟩
  obtain ⟨k, e, he, hm⟩ := moves_of_mem h he'
  exact (hinv e he).moves hm

end Sys2Proof.Machine
end

section
/-! SUPPORT. Who writes BITCOUNT, BUF and H: one case analysis over the changes of a step for each (10_state.md R21,
R23, R26). -/

namespace Sys2Proof.Machine

/-! ### BITCOUNT -/

theorem bitCount_add_toNat (bc : BitVec 64) (n : Fin 65) :
    (bc + BitVec.ofNat 64 (8 * n.val)).toNat = (bc.toNat + 8 * n.val) % 2 ^ 64 := by
  simp [BitVec.toNat_add]

/-- A completion counts the bytes of a NEXT taken in READING, and no others. -/
theorem Engine.complete_bitCount (e : Engine) :
    (∃ n : Fin 65, e.pend = some (.next n) ∧ e.padState = .reading ∧
      e.complete.bitCount = e.bitCount + BitVec.ofNat 64 (8 * n.val)) ∨
    (¬ (∃ n, e.pend = some (.next n) ∧ e.padState = .reading) ∧ e.complete.bitCount = e.bitCount) := by
  rcases e.complete_cases with ⟨hp, h⟩ | ⟨n, hp, hs, h⟩ | ⟨n, hp, hs, h⟩ | ⟨n, hp, hs, h⟩ | ⟨hp, h⟩ <;> rw [h]
  · exact .inr ⟨by simp [hp], rfl⟩
  · exact .inl ⟨n, hp, hs, rfl⟩
  · exact .inr ⟨by simp [hs], rfl⟩
  · exact .inr ⟨by simp [hs], rfl⟩
  · exact .inr ⟨by simp [hp], rfl⟩

theorem Engine.complete_bitCount_toNat {e : Engine} {n : Fin 65} (hp : e.pend = some (.next n))
    (hs : e.padState = .reading) : e.complete.bitCount.toNat = (e.bitCount.toNat + 8 * n.val) % 2 ^ 64 := by
  rcases e.complete_bitCount with ⟨m, hm, -, h⟩ | ⟨hno, -⟩
  · obtain rfl : m = n := by simpa [hm] using hp
    rw [h, bitCount_add_toNat]
  · exact absurd ⟨n, hp, hs⟩ hno

/-- The host changes BITCOUNT by INIT and reset alone, to 0. -/
theorem State.HostChange.bitCount_eq {s : State} {e e' : Engine} (h : s.HostChange e e')
    (hne : e'.bitCount ≠ e.bitCount) : (s.NextLegalInit e.page ∨ s.NextReset e.page) ∧ e'.bitCount = 0 := by
  cases h with
  | initLegal _ n a c h hd ha => exact ⟨.inl (State.nextLegalInit_of_write h hd ha), rfl⟩
  | resets h => exact ⟨.inr h, rfl⟩
  | _ => exact absurd (by simp) hne

theorem Engine.readReg_bitCountLo_toNat (e : Engine) (w : Word) (hb : e.busy = false) :
    (e.readReg w .bitCountLo).toNat = e.bitCount.toNat % 2 ^ 32 := by
  simp [Engine.readReg, hb, BitVec.extractLsb'_toNat]

theorem Engine.readReg_bitCountHi_toNat (e : Engine) (w : Word) (hb : e.busy = false) :
    (e.readReg w .bitCountHi).toNat = e.bitCount.toNat / 2 ^ 32 := by
  have hlt := e.bitCount.isLt
  simp only [Engine.readReg, hb, BitVec.extractLsb'_toNat, Nat.shiftRight_eq_div_pow, Bool.false_eq_true, if_false]
  omega

/-- Settles O21: by the cases of a completion and of the host's changes. -/
theorem bitCountLaw : Obligations.BitCountLaw := by
  unfold Obligations.BitCountLaw
  refine ⟨fun s t h k e e' he he' hne => ?_, fun s a hb ha => ?_, fun e n => Engine.complete_bitCount_toNat,
    fun e w hb => ⟨e.readReg_bitCountLo_toNat w hb, e.readReg_bitCountHi_toNat w hb⟩, fun s v => ⟨rfl, rfl⟩⟩
  · rcases (moves_of_step h he he').changes with ⟨j, -, -, rfl⟩ | ⟨hk, -, rfl⟩ | ⟨-, hc⟩
    · exact absurd rfl hne
    · rcases e.complete_bitCount with ⟨n, hp, hs, -⟩ | ⟨-, hsame⟩
      · exact .inr ⟨hk, hs, n, hp, Engine.complete_bitCount_toNat hp hs⟩
      · exact absurd hsame hne
    · exact .inl (hc.bitCount_eq hne)
  · refine ⟨_, exec_eq_issue _ _, ?_⟩
    cases halg : algOperand a with
    | none => exact absurd (algOperand_eq_none_iff.mp halg) (by omega)
    | some alg => simp [Engine.issue, hb, halg]

/-! ### BUF -/

/-- Settles O37: of a step's changes only a write of BUF and a reset reach BUF. -/
theorem bufferWrittenOnlyByHost : Obligations.BufferWrittenOnlyByHost := by
  unfold Obligations.BufferWrittenOnlyByHost
  intro s t h k e e' he he' j hne
  rcases (moves_of_step h he he').changes with ⟨i, -, -, rfl⟩ | ⟨-, -, rfl⟩ | ⟨-, hc⟩
  · exact absurd rfl hne
  · exact absurd (by rw [Engine.complete_buf]) hne
  · cases hc with
    | resets h => exact .inl h
    | writesBuf hb i v h =>
      have hlane := bufWithWord_getElem i v e.buf j.val j.isLt
      by_cases hj : j.val / 4 = i.val
      · rw [if_pos hj] at hlane
        exact .inr ⟨hb, v, hj ▸ h, hlane⟩
      · rw [if_neg hj] at hlane
        exact absurd hlane hne
    | _ => exact absurd (by simp) hne

/-! ### H -/

/-- A completion leaves H alone or folds one block into it, the block it leaves in BLK. -/
theorem Engine.complete_h (e : Engine) :
    e.complete.h = e.h ∨
    ((∃ c, e.pend = some c) ∧ e.complete.h = compressWords e.alg e.h e.complete.scratch.blk) := by
  have hfold : ∀ b, (e.compress b).h = compressWords e.alg e.h (e.compress b).scratch.blk := fun b => by
    rw [Engine.compress_h, Engine.compress_scratch, compressScratch_blk]
  rcases e.complete_cases with ⟨-, h⟩ | ⟨n, hp, -, h⟩ | ⟨n, hp, -, h⟩ | ⟨n, -, -, h⟩ | ⟨hp, h⟩ <;> rw [h]
  · exact .inl rfl
  · exact .inr ⟨⟨_, hp⟩, hfold _⟩
  · exact .inr ⟨⟨_, hp⟩, hfold _⟩
  · exact .inl rfl
  · exact .inr ⟨⟨_, hp⟩, hfold _⟩

/-- The host changes a word of H by INIT, reset and a write of that word alone. -/
theorem State.HostChange.h_getElem {s : State} {e e' : Engine} (h : s.HostChange e e') (i : Fin 8)
    (hne : e'.h[i] ≠ e.h[i]) :
    s.NextReset e.page ∨ s.NextLegalInit e.page ∨
    (e.busy = false ∧ ∃ v, s.NextWrite e.page (0x20 + 4 * i.val) v ∧ e'.h[i] = v) := by
  cases h with
  | resets h => exact .inl h
  | initLegal _ n a c h hd ha => exact .inr (.inl (State.nextLegalInit_of_write h hd ha))
  | writesH hb j v h =>
    by_cases hj : j = i
    · subst hj
      exact .inr (.inr ⟨hb, v, h, by simp⟩)
    · have hval : j.val ≠ i.val := fun hv => hj (Fin.ext hv)
      exact absurd (by simp [Vector.getElem_set_ne, hval]) hne
  | _ => exact absurd (by simp) hne

/-- Settles O38: a completion that folds a block has a command in flight, which the invariant says was accepted in
READING. -/
theorem chainingStateWrites : Obligations.ChainingStateWrites := by
  unfold Obligations.ChainingStateWrites
  intro s t h k e e' he he' hinv i hne
  rcases (moves_of_step h he he').changes with ⟨j, -, -, rfl⟩ | ⟨hk, -, rfl⟩ | ⟨-, hc⟩
  · exact absurd rfl hne
  · rcases e.complete_h with hsame | ⟨⟨c, hp⟩, hfold⟩
    · exact absurd (by rw [hsame]) hne
    · exact .inr (.inr (.inr ⟨hk, hinv.drv_of_pend hp, hinv.busy_of_pend hp, _, hfold, rfl⟩))
  · rcases hc.h_getElem i hne with h | h | h
    · exact .inl h
    · exact .inr (.inl h)
    · exact .inr (.inr (.inl h))

end Sys2Proof.Machine
end

section
/-! SUPPORT. The registers as they stand: MD5's four words of H (10_state.md R22) and the layout of STATUS (R27). -/

namespace Sys2Proof.Machine

/-! ### The four words of MD5 -/

/-- MD5 sees of H its first four words. -/
theorem md5Part_congr {h h' : Vector Word 8} (hh : ∀ k : Fin 8, k.val < 4 → h[k] = h'[k]) : md5Part h = md5Part h' := by
  simp only [md5Part]
  congr 1
  simpa using ⟨hh 0 (by decide), hh 1 (by decide), hh 2 (by decide), hh 3 (by decide)⟩

theorem compressWords_md5_lower (h : Vector Word 8) (b : Vector Byte 64) (k : Nat) (hk : k < 4) :
    (compressWords .md5 h b)[k] = (md5Compress (md5Part h) b)[k] := by
  have : k = 0 ∨ k = 1 ∨ k = 2 ∨ k = 3 := by omega
  rcases this with rfl | rfl | rfl | rfl <;> rfl

theorem serializeBytes_md5 (h : Vector Word 8) :
    serializeBytes h .md5 = le32bytes (md5Part h)[0] ++ le32bytes (md5Part h)[1] ++ le32bytes (md5Part h)[2] ++
      le32bytes (md5Part h)[3] ++ zeros 16 := rfl

theorem initialWords_md5_upper (k : Fin 8) (hk : 4 ≤ k.val) : (initialWords .md5)[k] = 0 := by
  revert k; decide

/-- Settles O30: compression and serializer see of H only `md5Part`. -/
theorem md5UsesFourWordsOnly : Obligations.Md5UsesFourWordsOnly := by
  unfold Obligations.Md5UsesFourWordsOnly
  refine ⟨fun e k hk => initialWords_md5_upper k hk, fun h h' b hh => ?_, fun s i v hb _ => ?_, fun h => ⟨rfl, rfl⟩⟩
  · have hpart := md5Part_congr hh
    refine ⟨fun k hk => ?_, fun k hk => compressWords_md5_upper h b k.val k.isLt hk, by
      simp only [serialize, serializeBytes_md5, hpart]⟩
    simp only [Fin.getElem_fin, compressWords_md5_lower _ _ _ hk, hpart]
  · rcases s.self.writeH_cases i v with ⟨hbusy, -⟩ | ⟨-, hw⟩
    · exact absurd hbusy (by simp [hb])
    · rw [State.writeSelf_eq, ← hw]; rfl

/-! ### STATUS -/

/-- The STATUS word bit by bit: each field at its place, and zeros beside them. -/
theorem Engine.statusWord_getLsbD (e : Engine) (i : Nat) (hi : i < 32) :
    e.statusWord.getLsbD i =
      (decide (i = 0) && e.busy || decide (i = 1) && e.err || decide (i = 2) && e.digestValid ||
        decide (4 ≤ i) && (drvCode e.drv).getLsbD (i - 4) || decide (8 ≤ i) && (padCode e.padState).getLsbD (i - 8) ||
        decide (12 ≤ i) && (algCode e.alg).getLsbD (i - 12)) := by
  match i with
  | 0 | 1 | 2 => simp [Engine.statusWord, Engine.busyErrBits]
  | i + 3 => simp [Engine.statusWord, Engine.busyErrBits, hi, ← decide_not]

theorem Engine.statusWord_drv (e : Engine) : e.statusWord.extractLsb' 4 2 = drvCode e.drv := by
  apply BitVec.eq_of_getLsbD_eq
  intro i hi
  rw [BitVec.getLsbD_extractLsb', Engine.statusWord_getLsbD _ _ (by omega)]
  interval_cases i <;> simp

theorem Engine.statusWord_padState (e : Engine) : e.statusWord.extractLsb' 8 2 = padCode e.padState := by
  apply BitVec.eq_of_getLsbD_eq
  intro i hi
  rw [BitVec.getLsbD_extractLsb', Engine.statusWord_getLsbD _ _ (by omega)]
  interval_cases i <;> simp

/-- The bits of no field are 0. -/
theorem Engine.statusWord_reserved (e : Engine) (i : Nat) (hi : i < 32)
    (h : i = 3 ∨ i = 6 ∨ i = 7 ∨ i = 10 ∨ i = 11 ∨ 13 ≤ i) : e.statusWord.getLsbD i = false := by
  rw [Engine.statusWord_getLsbD _ _ hi]
  rcases h with rfl | rfl | rfl | rfl | rfl | h
  iterate 5 · simp
  have hd := BitVec.getLsbD_of_ge (drvCode e.drv) (i - 4) (by omega)
  have hp := BitVec.getLsbD_of_ge (padCode e.padState) (i - 8) (by omega)
  have ha := BitVec.getLsbD_of_ge (algCode e.alg) (i - 12) (by omega)
  simp [hd, hp, ha, show i ≠ 0 by omega, show i ≠ 1 by omega, show i ≠ 2 by omega]

theorem slice_eq_zero_of_bits {c : Word} {start len : Nat}
    (h : ∀ i, start ≤ i → i < start + len → c.getLsbD i = false) : c.extractLsb' start len = 0 := by
  apply BitVec.eq_of_getLsbD_eq
  intro i hi
  simp [BitVec.getLsbD_extractLsb', h (start + i) (by omega) (by omega)]

/-- Settles O34: each field is read off the STATUS word bit by bit; a write of STATUS is no write. -/
theorem statusWordLayout : Obligations.StatusWordLayout := by
  unfold Obligations.StatusWordLayout
  refine ⟨fun e => ⟨?_, ?_, ?_, ?_, ?_, ?_, ?_, ?_, ?_, ?_⟩, fun s v => rfl⟩
  · rw [e.statusWord_getLsbD 0 (by omega)]; simp
  · rw [e.statusWord_getLsbD 1 (by omega)]; simp
  · rw [e.statusWord_getLsbD 2 (by omega)]; simp
  · rw [Engine.statusWord_drv]
    cases e.drv <;> rfl
  · rw [Engine.statusWord_padState]
    cases e.padState <;> rfl
  · rw [e.statusWord_getLsbD 12 (by omega)]
    cases e.alg <;> simp [algCode]
  · exact e.statusWord_reserved 3 (by omega) (by omega)
  · exact slice_eq_zero_of_bits fun i _ _ => e.statusWord_reserved i (by omega) (by omega)
  · exact slice_eq_zero_of_bits fun i _ _ => e.statusWord_reserved i (by omega) (by omega)
  · exact slice_eq_zero_of_bits fun i _ _ => e.statusWord_reserved i (by omega) (by omega)

end Sys2Proof.Machine
end

section
/-! SUPPORT. Commands reach `self`: a word written to its CMD, with no completion due, is the next thing that runs
(10_state.md R38, 44_driver.md R180; log entries 1 and 16). -/

namespace Sys2Proof.Machine

theorem Engine.holdOff_due (e : Engine) : e.holdOff.due = false := by
  cases h : e.due
  · simp [Engine.holdOff, h]
  · rw [Engine.holdOff, if_pos h]
    simp [Engine.due]

theorem State.holdOff_dueEngine (s : State) : s.holdOff.dueEngine = none := by
  rw [State.dueEngine_none]
  intro e he
  obtain ⟨e₀, -, rfl⟩ : ∃ e₀ ∈ s.engines, e₀.holdOff = e := by
    simpa [State.engines, eq_comm] using he
  exact e₀.holdOff_due

theorem State.withEngine_zero (f : State → Host.Outcome State Fault Refusal) (s : State) : s.withEngine 0 f = f s := by
  simp only [State.withEngine, State.swapIn]
  cases f s <;> rfl

/-- An address in `self`'s window reaches `self`, the first engine. -/
theorem State.atWindow_self {addr : Nat} {s : State} (h : pageOf addr = s.self.page)
    (f : State → Host.Outcome State Fault Refusal) : s.atWindow addr f = f s := by
  have hfind : s.findWindow addr = some 0 := by simp [State.findWindow, State.engines, List.findIdx?_cons, h]
  simp only [State.atWindow, hfind, State.withEngine_zero]

theorem State.perform_cmdWrite_self (s : State) (c : Word) : s.perform (cmdWrite s.self.page c) = s.writeCmd c := by
  simp only [cmdWrite, State.perform, State.busWrite]
  rw [State.atWindow_self (by simp)]
  simp [accessPerformed, windowReg, State.writeSelf]

/-- A step with no completion due takes the word the host writes to `self`'s CMD. -/
theorem step_cmdWrite_self {s : State} {c : Word} {rest : List HostOp} (hdue : s.dueEngine = none)
    (hq : s.queue = cmdWrite s.self.page c :: rest) : step s = { s.tick with queue := rest }.writeCmd c := by
  have hpage : s.self.page = { s.tick with queue := rest }.self.page := by simp
  simp only [step, State.event, hdue, State.hostTurn, hq]
  rw [hpage, State.perform_cmdWrite_self]

theorem decode_of_decodeTableWord {nbits w : Nat} {i : Instr} (h : decodeTableWord nbits w = some i) :
    decode (BitVec.ofNat 32 (w % 2 ^ nbits)) = .ok i := by
  rw [decodeTableWord_eq] at h
  cases hd : decode (BitVec.ofNat 32 (w % 2 ^ nbits)) with
  | ok j => simpa [hd] using h
  | error x => simp [hd] at h

/-- Settles O57: `withFetchWord` puts every due completion off and queues the write of the word, which the step
takes. -/
theorem placedCommandRunsNext : Obligations.PlacedCommandRunsNext := by
  unfold Obligations.PlacedCommandRunsNext
  intro s nbits w i hw
  have hstep : step (s.withFetchWord nbits w) =
      { s.holdOff.tick with queue := s.queue }.writeCmd (BitVec.ofNat 32 (w % 2 ^ nbits)) :=
    step_cmdWrite_self s.holdOff_dueEngine rfl
  rw [hstep, State.writeCmd, decode_of_decodeTableWord hw]

end Sys2Proof.Machine
end

section
/-! SUPPORT. The hidden storage is read by nothing (10_state.md R24, R25): an operation is blind when blanking the
hidden storage before it changes nothing after it but hidden storage. Each operation of the step is blind, and so is the
step. -/

namespace Sys2Proof.Machine

/-! ### Operations on one engine -/

@[simp] theorem Engine.hide_hide (e : Engine) : e.hide.hide = e.hide := rfl

/-- What the operation makes of an engine does not depend on the hidden storage. -/
def Engine.Blind (f : Engine → Engine) : Prop := ∀ e, (f e.hide).hide = (f e).hide

namespace Engine.Blind

theorem unchanged : Engine.Blind id := fun _ => rfl
theorem raiseError (c : ErrCode) : Engine.Blind (Engine.raiseError c) := fun _ => rfl
theorem accept (c : InFlight) : Engine.Blind (Engine.accept c) := fun _ => rfl
theorem initLegal (a : Alg) : Engine.Blind (Engine.initLegal a) := fun _ => rfl
theorem initFail : Engine.Blind Engine.initFail := fun _ => rfl
theorem abortReading : Engine.Blind Engine.abortReading := fun _ => rfl
theorem nextData (n : Nat) : Engine.Blind (Engine.nextData n) := fun _ => rfl
theorem nextPadOnly : Engine.Blind Engine.nextPadOnly := fun _ => rfl
theorem digestCommit : Engine.Blind Engine.digestCommit := fun _ => rfl
theorem compressBody : Engine.Blind Engine.compressBody := fun _ => rfl
/-- A reset event draws the hidden storage anew. -/
theorem resetEvent (d : Nat) : Engine.Blind (Engine.resetEvent d) := fun _ => rfl

variable {f : Engine → Engine}

theorem retire (hf : Engine.Blind f) : Engine.Blind fun e => (f e).retire :=
  fun e => congrArg Engine.retire (hf e)

theorem recordBusyViolation : Engine.Blind Engine.recordBusyViolation := fun e => by
  cases h : e.err <;> simp [Engine.recordBusyViolation, h, raiseError _ e]

theorem unlessBusy (hf : Engine.Blind f) : Engine.Blind (Engine.unlessBusy f) := fun e => by
  cases h : e.busy <;> simp [h, hf e, recordBusyViolation e]

theorem unlessBusyOrError (hf : Engine.Blind f) : Engine.Blind (Engine.unlessBusyOrError f) :=
  unlessBusy fun e => by
    cases h : e.err <;> simp [h, hf e]

theorem ifReading (hf : Engine.Blind f) : Engine.Blind (Engine.ifReading f) := fun e => by
  by_cases h : e.drv = .reading <;> simp [Engine.ifReading, h, hf e, raiseError _ e]

theorem issueNext (n : Nat) : Engine.Blind (Engine.issueNext n) := fun e => by
  cases h : countOperand n with
  | none => simp only [Engine.issueNext, h, raiseError _ e]
  | some k => simp only [Engine.issueNext, h, ifReading (accept _) e]

theorem issue : (i : Instr) → Engine.Blind (Engine.issue i)
  | .nop => unlessBusyOrError unchanged
  | .init a => unlessBusy <| by
    cases algOperand a with
    | none => exact initFail
    | some alg => exact initLegal alg
  | .next n => unlessBusyOrError (issueNext n)
  | .compress => unlessBusyOrError (ifReading (accept _))
  | .abort => unlessBusyOrError (ifReading abortReading)

theorem takeWord (c : Word) : Engine.Blind (Engine.takeWord c) := fun e => by
  cases h : decode c with
  | ok i => simp only [Engine.takeWord, h, issue i e]
  | error x => simp only [Engine.takeWord, h, unlessBusyOrError (raiseError _) e]

theorem written (v : Word) : (r : WindowReg) → Engine.Blind (Engine.written r v)
  | .cmd => takeWord v
  | .h _ => unlessBusy fun _ => rfl
  | .buf _ => unlessBusy fun _ => rfl
  | .status | .errcode | .bitCountLo | .bitCountHi | .digest _ | .reserved => unchanged

theorem nextBody (n : Nat) : Engine.Blind (Engine.nextBody n) := fun e => by
  cases h : e.padState with
  | reading => simp only [Engine.nextBody, Engine.hide_padState, h, nextData n e]
  | onePadEmitted => simp only [Engine.nextBody, Engine.hide_padState, h, nextPadOnly e]
  | done => simp only [Engine.nextBody, Engine.hide_padState, h, digestCommit e]

/-- A completion writes its hidden storage before it reads it. -/
theorem complete : Engine.Blind Engine.complete := fun e => by
  match h : e.pend with
  | none => simp only [Engine.complete, Engine.hide_pend, h]; rfl
  | some (.next n) => simp only [Engine.complete, Engine.hide_pend, h, (nextBody n.val).retire e]
  | some .compress => simp only [Engine.complete, Engine.hide_pend, h, compressBody.retire e]

end Engine.Blind

/-! ### Operations on the machine -/

/-- The outcome of the operation does not depend on any engine's hidden storage, but for hidden storage. -/
def State.Blind (f : State → Host.Outcome State Fault Refusal) : Prop :=
  ∀ s, onNext State.hide (f s.hide) = onNext State.hide (f s)

theorem onNext_onNext (f g : State → State) (o : Host.Outcome State Fault Refusal) :
    onNext g (onNext f o) = onNext (g ∘ f) o := by
  cases o <;> rfl

@[simp] theorem State.hide_hide (s : State) : s.hide.hide = s.hide := by
  simp [State.hide]

theorem Engine.hide_tick (e : Engine) : e.hide.tick = e.tick.hide := by
  cases h : e.pend <;> simp [Engine.tick, h, Engine.hide]

theorem State.hide_tick (s : State) : s.hide.tick = s.tick.hide := by
  simp [State.tick, State.hide, Engine.hide_tick]

theorem State.hide_engines (s : State) : s.hide.engines = s.engines.map Engine.hide := rfl

theorem State.hide_dueEngine (s : State) : s.hide.dueEngine = s.dueEngine := by
  simp only [State.dueEngine, State.hide_engines, List.findIdx?_map]; rfl

theorem State.hide_findWindow (s : State) (addr : Nat) : s.hide.findWindow addr = s.findWindow addr := by
  simp only [State.findWindow, State.hide_engines, List.findIdx?_map]; rfl

theorem State.hide_swapIn (k : Nat) (s : State) : s.hide.swapIn k = (s.swapIn k).hide := by
  cases k with
  | zero => rfl
  | succ j => cases h : s.peers[j]? <;> simp [State.swapIn, h, State.hide, List.map_set]

/-- A read gives the word it gave with the hidden storage blanked. -/
theorem State.hide_readSelf (r : WindowReg) (s : State) : s.hide.readSelf r = (s.readSelf r).hide := rfl

theorem State.hide_doFirst (l : List HostOp) (s : State) : s.hide.doFirst l = (s.doFirst l).hide := rfl

theorem State.withEngine_eq_onNext (k : Nat) (f : State → Host.Outcome State Fault Refusal) (s : State) :
    s.withEngine k f = onNext (State.swapIn k) (f (s.swapIn k)) := by
  simp only [State.withEngine]
  cases f (s.swapIn k) <;> rfl

theorem State.pollStatus_eq_onNext (page : Nat) (more : Word → State → State) (s : State) :
    s.pollStatus page more =
      onNext (fun t => more (t.reads.headD 0) t) (s.busRead (windowAddr page 0x04) .w32) := by
  simp only [State.pollStatus]
  cases s.busRead (windowAddr page 0x04) .w32 <;> rfl

namespace State.Blind
variable {f : State → Host.Outcome State Fault Refusal}

/-- A function of the next state that moves hidden storage about, or leaves it, may follow. -/
theorem then_onNext (hf : State.Blind f) {g : State → State} (hg : ∀ s, g s.hide = (g s).hide) :
    State.Blind fun s => onNext g (f s) := fun s => by
  have hswap : State.hide ∘ g = g ∘ State.hide := funext fun t => (hg t).symm
  calc onNext State.hide (onNext g (f s.hide))
      = onNext g (onNext State.hide (f s.hide)) := by rw [onNext_onNext, hswap, onNext_onNext]
    _ = onNext g (onNext State.hide (f s)) := by rw [hf s]
    _ = onNext State.hide (onNext g (f s)) := by rw [onNext_onNext, ← hswap, onNext_onNext]

theorem withEngine (hf : State.Blind f) (k : Nat) : State.Blind (State.withEngine k f) := fun s => by
  have h := hf.then_onNext (State.hide_swapIn k) (s.swapIn k)
  simpa only [State.withEngine_eq_onNext, State.hide_swapIn] using h

theorem atWindow (hf : State.Blind f) (addr : Nat) : State.Blind (State.atWindow addr f) := fun s => by
  cases h : s.findWindow addr with
  | none => simp only [State.atWindow, State.hide_findWindow, h]
  | some k => simp only [State.atWindow, State.hide_findWindow, h, hf.withEngine k s]

theorem next {g : State → State} (hg : ∀ s, (g s.hide).hide = (g s).hide) : State.Blind fun s => .next (g s) :=
  fun s => congrArg Host.Outcome.next (hg s)

theorem ifPerformed (hf : State.Blind f) (b : Bool) :
    State.Blind fun s => if b then f s else .refused .accessNotPerformed := by
  cases b
  · exact fun _ => rfl
  · exact hf

/-- An operation on `self` alone. -/
theorem onSelf {g : Engine → Engine} (hg : Engine.Blind g) : State.Blind fun s => .next { s with self := g s.self } :=
  fun s => by simp [onNext, State.hide, hg s.self]

theorem completeSelf : State.Blind State.completeSelf := onSelf .complete

theorem writeSelf (r : WindowReg) (v : Word) : State.Blind (State.writeSelf r v) := fun s => by
  simpa only [State.writeSelf_eq] using onSelf (.written v r) s

theorem busWrite (addr : Nat) (w : AccessWidth) (v : Word) : State.Blind (State.busWrite addr w v) :=
  ((writeSelf _ v).ifPerformed _).atWindow addr

theorem busRead (addr : Nat) (w : AccessWidth) : State.Blind (State.busRead addr w) :=
  ((next fun s => by rw [State.hide_readSelf, State.hide_hide]).ifPerformed _).atWindow addr

theorem resetSelf : State.Blind fun s => .next s.resetSelf :=
  next fun s => by simp [State.resetSelf, State.hide, Engine.Blind.resetEvent s.draws s.self]

theorem pollStatus (page : Nat) {more : Word → State → State} (hm : ∀ w s, more w s.hide = (more w s).hide) :
    State.Blind (State.pollStatus page more) := fun s => by
  simp only [State.pollStatus_eq_onNext]
  exact (busRead _ _).then_onNext (fun t => hm (t.reads.headD 0) t) s

theorem waitOnce (page : Nat) : State.Blind (State.waitOnce page) := by
  refine pollStatus page fun w s => ?_
  rw [apply_ite State.hide, State.hide_doFirst]

theorem finishOnce (page : Nat) : State.Blind (State.finishOnce page) := by
  refine pollStatus page fun w s => ?_
  rw [apply_ite State.hide, State.hide_doFirst]

theorem perform : (op : HostOp) → State.Blind (State.perform op)
  | .write addr w v => busWrite addr w v
  | .read addr w => busRead addr w
  | .wait page => waitOnce page
  | .finish page => finishOnce page
  | .reset _ => resetSelf.atWindow _
  | .idle => next State.hide_hide

theorem hostTurn : State.Blind State.hostTurn := fun s => by
  cases hq : s.queue with
  | nil => simp only [State.hostTurn, State.hide_queue, hq, State.hide_tick, onNext, State.hide_hide]
  | cons op rest =>
    simp only [State.hostTurn, State.hide_queue, hq, State.hide_tick]
    exact perform op { s.tick with queue := rest }

theorem event : State.Blind State.event := fun s => by
  cases h : s.dueEngine with
  | none => simp only [State.event, State.hide_dueEngine, h, hostTurn s]
  | some k => simp only [State.event, State.hide_dueEngine, h, completeSelf.withEngine k s]

end State.Blind

/-- Settles O55: the step is blind, so both machines step as the one with its hidden storage blanked. -/
theorem hiddenStorageIsUnobservable : Obligations.HiddenStorageIsUnobservable := by
  unfold Obligations.HiddenStorageIsUnobservable
  intro s u h
  calc onNext State.hide (step s) = onNext State.hide (step s.hide) := (State.Blind.event s).symm
    _ = onNext State.hide (step u.hide) := by rw [h]
    _ = onNext State.hide (step u) := State.Blind.event u

end Sys2Proof.Machine
end

section
/-! SUPPORT. The register window (20_memory.md R52 to R60): what a read of each register gives, what a write of it leaves,
and which accesses are refused. -/

namespace Sys2Proof.Machine

@[simp] theorem Engine.written_h (e : Engine) (i : Fin 8) (v : Word) : e.written (.h i) v = e.writeH i v := rfl
@[simp] theorem Engine.written_buf (e : Engine) (k : Fin 16) (v : Word) : e.written (.buf k) v = e.writeBuf k v := rfl

/-! ### Writes while BUSY -/

/-- Every command word begins with the BUSY check of 44_driver.md R180. -/
theorem Engine.takeWord_of_busy {e : Engine} (hb : e.busy = true) (c : Word) :
    e.takeWord c = e.recordBusyViolation := by
  cases hd : decode c with
  | ok i => cases i <;> simp [Engine.takeWord, hd, Engine.issue, hb]
  | error x => simp [Engine.takeWord, hd, hb]

theorem State.writeSelf_of_busy {s : State} {r : WindowReg} (hb : s.self.busy = true)
    (hr : r = .cmd ∨ (∃ i, r = .h i) ∨ ∃ k, r = .buf k) (v : Word) :
    s.writeSelf r v = .next { s with self := s.self.recordBusyViolation } := by
  have hwritten : s.self.written r v = s.self.recordBusyViolation := by
    rcases hr with rfl | ⟨i, rfl⟩ | ⟨k, rfl⟩
    · exact Engine.takeWord_of_busy hb v
    · rw [Engine.written_h, Engine.writeH, Engine.unlessBusy_of_busy _ _ hb]
    · rw [Engine.written_buf, Engine.writeBuf, Engine.unlessBusy_of_busy _ _ hb]
  rw [State.writeSelf_eq, hwritten]

/-- A completion neither reads nor writes ERR and ERRCODE (44_driver.md R196). -/
theorem Engine.complete_withError (e : Engine) (b : Bool) (x : ErrCode) :
    { e with err := b, errCode := x }.complete = { e.complete with err := b, errCode := x } := by
  match hp : e.pend with
  | none => simp only [Engine.complete, hp]
  | some .compress => simp only [Engine.complete, hp]; rfl
  | some (.next n) =>
    cases hs : e.padState with
    | reading => simp only [Engine.complete, hp, Engine.nextBody, hs]; rfl
    | onePadEmitted => simp only [Engine.complete, hp, Engine.nextBody, hs]; rfl
    | done => simp only [Engine.complete, hp, Engine.nextBody, hs, Engine.digestCommit, Engine.retire]

/-- Settles O9: all three targets stand behind the BUSY check, which records the violation or, with an error recorded,
does nothing; a completion carries whatever ERR and ERRCODE hold. -/
theorem busyWritesAreDropped : Obligations.BusyWritesAreDropped := by
  unfold Obligations.BusyWritesAreDropped
  refine ⟨fun s r v hb hr => ?_, fun e => e.complete_withError true .busyViolation⟩
  rw [State.writeSelf_of_busy hb hr]
  rcases s.self.recordBusyViolation_cases with ⟨herr, h⟩ | ⟨herr, h⟩ <;> rw [h]
  · exact ⟨fun hno => absurd herr (by simp [hno]), fun _ => rfl⟩
  · exact ⟨fun _ => rfl, fun hyes => absurd hyes (by simp [herr])⟩

/-! ### Reads while idle -/

/-- With no completion due a step is the host's next operation, done after time has passed. -/
theorem step_eq_perform {s : State} {op : HostOp} {rest : List HostOp} (hdue : s.dueEngine = none)
    (hq : s.queue = op :: rest) : step s = { s.tick with queue := rest }.perform op := by
  simp only [step, State.event, hdue, State.hostTurn, hq]

theorem State.perform_read_self (s : State) {off : Nat} (hlt : off < 256) (hal : off % 4 = 0) :
    s.perform (.read (windowAddr s.self.page off) .w32) = .next (s.readSelf (windowReg off)) := by
  simp only [State.perform, State.busRead]
  rw [State.atWindow_self (pageOf_windowAddr_of_lt _ _ hlt)]
  simp [accessPerformed, hlt, hal]

/-- The word the bus shows for four bytes of a register file has each of them in its lane (20_memory.md R53). -/
theorem byteOf_le32_lane {n : Nat} (b : Vector Byte n) (k : Nat) (hk : 4 * k + 3 < n) (j : Fin 4) :
    byteOf (le32 b[4 * k] b[4 * k + 1] b[4 * k + 2] b[4 * k + 3]) j.val = b[4 * k + j.val] := by
  rw [byteOf_le32 _ _ _ _ _ j.isLt]
  fin_cases j <;> rfl

/-- Settles O44: the step is a read of `self`, which uses up no draw while idle; BUF and DIGEST show their bytes lane by
lane. -/
theorem idleReadsGiveRegisterValues : Obligations.IdleReadsGiveRegisterValues := by
  unfold Obligations.IdleReadsGiveRegisterValues
  intro s off rest hdue hb hlt hal hq
  have hstep : step s = .next (State.readSelf (windowReg off) { s.tick with queue := rest }) := by
    rw [step_eq_perform hdue hq]
    simpa using State.perform_read_self { s.tick with queue := rest } hlt hal
  refine ⟨s.self.readReg (Config.freeWord s.draws) (windowReg off), by simp [hstep, State.readSelf, hb], ?_⟩
  cases windowReg off with
  | buf k => exact byteOf_le32_lane s.self.buf k.val (by omega)
  | digest k =>
    simp only [Engine.readReg, hb]
    exact byteOf_le32_lane s.self.digest k.val (by omega)
  | _ => simp [Engine.readReg, hb]

/-! ### Reads while BUSY -/

theorem Engine.busyErrBits_getLsbD (e : Engine) (i : Nat) :
    e.busyErrBits.getLsbD i = (decide (i = 0) && e.busy || decide (i = 1) && e.err) := by
  match i with
  | 0 | 1 => simp [Engine.busyErrBits]
  | i + 2 => simp [Engine.busyErrBits]

/-- The STATUS bits a read while BUSY leaves open (20_memory.md R60). -/
theorem statusFreeMask_getLsbD (i : Nat) :
    statusFreeMask.getLsbD i = decide (i = 2 ∨ i = 4 ∨ i = 5 ∨ i = 8 ∨ i = 9 ∨ i = 12) := by
  by_cases hi : i < 32
  · have hall : ∀ j : Fin 32, statusFreeMask.getLsbD j.val =
        decide (j.val = 2 ∨ j.val = 4 ∨ j.val = 5 ∨ j.val = 8 ∨ j.val = 9 ∨ j.val = 12) := by decide
    exact hall ⟨i, hi⟩
  · rw [BitVec.getLsbD_of_ge _ _ (by omega), decide_eq_false (by omega)]

/-- Settles O45: bits 0 and 1 of STATUS are exact, the mask lets the draw's open bits through, and the other registers
are one branch of the read each. -/
theorem busyReads : Obligations.BusyReads := by
  unfold Obligations.BusyReads
  intro e w hb
  refine ⟨fun i => ?_, rfl, fun k => rfl, fun i => if_pos hb, if_pos hb, if_pos hb, fun k => if_pos hb⟩
  have hread : e.readReg w .status = e.busyStatusWord w := if_pos hb
  rw [hread, Engine.busyStatusWord, BitVec.getLsbD_or, BitVec.getLsbD_and, Engine.busyErrBits_getLsbD,
    statusFreeMask_getLsbD]
  split_ifs with h0 h1 hfree
  · simp [h0, hb]
  · simp [h1]
  · simp [h0, h1, hfree]
  · simp [h0, h1, hfree]

/-! ### Writes while idle -/

theorem State.writeSelf_h_of_idle {s : State} (hb : s.self.busy = false) (i : Fin 8) (v : Word) :
    s.writeSelf (.h i) v = .next { s with self := { s.self with h := s.self.h.set i.val v } } := by
  rw [State.writeSelf_eq, Engine.written_h, Engine.writeH, Engine.unlessBusy_of_idle _ _ hb]

theorem State.writeSelf_buf_of_idle {s : State} (hb : s.self.busy = false) (k : Fin 16) (v : Word) :
    s.writeSelf (.buf k) v = .next { s with self := { s.self with buf := bufWithWord k v s.self.buf } } := by
  rw [State.writeSelf_eq, Engine.written_buf, Engine.writeBuf, Engine.unlessBusy_of_idle _ _ hb]; rfl

/-- The bus shows a BUF word as it was written: the lanes of the write are those of the read (20_memory.md R53). -/
theorem Engine.readReg_bufWithWord (e : Engine) (k : Fin 16) (v w : Word) :
    { e with buf := bufWithWord k v e.buf }.readReg w (.buf k) = v := by
  have hlane : ∀ j (hj : j < 4), (bufWithWord k v e.buf)[4 * k.val + j] = byteOf v j := fun j hj => by
    rw [bufWithWord_getElem, if_pos (by omega)]
    congr 1; omega
  have h0 := hlane 0 (by omega)
  simp only [Nat.add_zero] at h0
  simp only [Engine.readReg, h0, hlane 1 (by omega), hlane 2 (by omega), hlane 3 (by omega), le32_byteOf]

/-- Settles O47: while idle both writes are plain updates, of one word of H or of the four lanes of one BUF word. -/
theorem hostWritesTakeEffect : Obligations.HostWritesTakeEffect := by
  unfold Obligations.HostWritesTakeEffect
  intro s v hb
  refine ⟨fun i => ⟨_, State.writeSelf_h_of_idle hb i v, rfl, fun j => ?_, fun w => ?_⟩,
    fun k => ⟨_, State.writeSelf_buf_of_idle hb k v, rfl, fun j => bufWithWord_getElem k v s.self.buf j.val j.isLt,
      s.self.readReg_bufWithWord k v⟩⟩
  · simp [Vector.getElem_set, Fin.ext_iff, eq_comm]
  · simp [Engine.readReg, hb]

/-- Settles O46: a register write reaches H and BUF alone. -/
theorem readOnlyWritesIgnored : Obligations.ReadOnlyWritesIgnored := by
  unfold Obligations.ReadOnlyWritesIgnored
  intro s v r hr
  have hkept : s.self.written r v = s.self := by
    rcases hr with rfl | rfl | rfl | rfl | ⟨k, rfl⟩ | rfl <;> rfl
  rw [State.writeSelf_eq, hkept]

/-! ### Refused accesses -/

theorem accessPerformed_eq_false {addr : Nat} {width : AccessWidth} (h : width ≠ .w32 ∨ offsetOf addr % 4 ≠ 0) :
    accessPerformed addr width = false := by
  rcases h with h | h <;> simp [accessPerformed, h]

/-- What every engine refuses, the one at the address refuses. -/
theorem State.atWindow_refused {s : State} {addr : Nat} (hwin : ∃ e ∈ s.engines, e.page = pageOf addr)
    {f : State → Host.Outcome State Fault Refusal} {r : Refusal} (hf : ∀ u, f u = .refused r) :
    s.atWindow addr f = .refused r := by
  obtain ⟨e, he, hpage⟩ := hwin
  cases hk : s.findWindow addr with
  | none => exact absurd hpage (State.findWindow_none.mp hk e he)
  | some k => simp only [State.atWindow, hk, State.withEngine, hf]

/-- Settles O48: the window that holds the address performs neither a write nor a read of that form. -/
theorem unperformedAccessRefused : Obligations.UnperformedAccessRefused := by
  unfold Obligations.UnperformedAccessRefused
  intro s addr width v rest hdue ⟨e, he, hpage⟩ hbad hq
  have hwin : ∃ e ∈ { s.tick with queue := rest }.engines, e.page = pageOf addr :=
    ⟨e.tick, List.mem_map_of_mem he, by rw [Engine.tick_page, hpage]⟩
  have hacc := accessPerformed_eq_false hbad
  rcases hq with hq | hq <;> rw [step_eq_perform hdue hq] <;>
    exact State.atWindow_refused hwin fun u => by simp [hacc]

end Sys2Proof.Machine
end

section
/-! SUPPORT. The illegal encodings (30_encoding.md R76): the words of the rule's list are those the decoder gives an error
for, and a CMD write of one records ILLEGAL_COMMAND. -/

namespace Sys2Proof.Machine

/-- No word of a command stands in the list of R76: its fields, in numbers, meet none of the list's clauses. -/
theorem not_illegalWord_of_decode_ok {c : Word} {i : Instr} (hd : decode c = .ok i) : ¬ illegalWord c := by
  rcases decode_cases c with ⟨rfl, -⟩ | ⟨hop, hhigh, -⟩ | ⟨hlow, hhigh, -⟩ | ⟨rfl, -⟩ | ⟨rfl, -⟩ | ⟨-, x, hx⟩
  case inr.inr.inr.inr.inr => exact absurd (hd.symm.trans hx) (by simp)
  case inr.inl | inr.inr.inl =>
    simp only [illegalWord, opField_eq, ne_eq, slice_eq_zero_iff]
    omega
  all_goals decide

/-- The list of R76 is all of the decoder's ILLEGAL (R75). -/
theorem illegalWord_iff_decode_error {c : Word} : illegalWord c ↔ ∃ x, decode c = .error x := by
  constructor
  · intro hill
    cases hd : decode c with
    | ok i => exact absurd hill (not_illegalWord_of_decode_ok hd)
    | error x => exact ⟨x, rfl⟩
  · rintro ⟨x, hx⟩
    rcases decode_cases c with ⟨-, hd⟩ | ⟨-, -, hd⟩ | ⟨-, -, hd⟩ | ⟨-, hd⟩ | ⟨-, hd⟩ | ⟨hill, -⟩
    case inr.inr.inr.inr.inr => exact hill
    all_goals exact absurd (hd.symm.trans hx) (by simp)

theorem decode_error_iff_ne_ok {c : Word} : (∃ x, decode c = .error x) ↔ ∀ i, decode c ≠ .ok i := by
  cases decode c <;> simp

/-- A word that decodes to ILLEGAL, written when BUSY and ERR are 0, records ILLEGAL_COMMAND and nothing else. -/
theorem State.writeCmd_of_decode_error {s : State} {c : Word} {x : DecodeError} (hs : s.Ready)
    (hd : decode c = .error x) :
    s.writeCmd c = .next { s with self := s.self.raiseError .illegalCommand } := by
  obtain ⟨hbusy, herr⟩ := hs
  rw [State.writeCmd, hd]
  simp only [execIllegal_eq, Engine.unlessBusyOrError_of_ready _ _ hbusy herr]

/-- Settles O5: the list is the decoder's ILLEGAL, and an ILLEGAL word passes the BUSY and ERR checks to its error. -/
theorem illegalEncodingsRecordIllegalCommand : Obligations.IllegalEncodingsRecordIllegalCommand := by
  unfold Obligations.IllegalEncodingsRecordIllegalCommand
  refine ⟨fun s c hs hill => ?_, fun c => illegalWord_iff_decode_error.trans decode_error_iff_ne_ok⟩
  obtain ⟨x, hx⟩ := illegalWord_iff_decode_error.mp hill
  exact State.writeCmd_of_decode_error hs hx

end Sys2Proof.Machine
end

section
/-! SUPPORT. NEXT step by step (40_padder.md R109 to R112): which check stops it, what its acceptance and its completion
make of the engine by PADSTATE, and who moves PADSTATE. -/

namespace Sys2Proof.Machine

/-! ### Acceptance -/

theorem countOperand_of_lt {n : Nat} (h : n < 65) : countOperand n = some ⟨n, h⟩ := dif_pos h

theorem Engine.issue_next_badLength {e : Engine} (hb : e.busy = false) (he : e.err = false) {n : Nat} (hn : 64 < n) :
    e.issue (.next n) = e.raiseError .badLength := by
  have hcount : countOperand n = none := dif_neg (by omega)
  simp [Engine.issue, hb, he, Engine.issueNext, hcount]

theorem Engine.issue_next_wrongState {e : Engine} (hb : e.busy = false) (he : e.err = false) {n : Nat}
    (hn : n ≤ 64) (hd : e.drv ≠ .reading) : e.issue (.next n) = e.raiseError .wrongState := by
  simp [Engine.issue, hb, he, Engine.issueNext, countOperand_of_lt (show n < 65 by omega), Engine.ifReading, hd]

theorem Engine.issue_next_accept {e : Engine} (hb : e.busy = false) (he : e.err = false) (hd : e.drv = .reading)
    (n : Fin 65) : e.issue (.next n.val) = e.accept (.next n) := by
  simp [Engine.issue, hb, he, Engine.issueNext, countOperand_of_lt n.isLt, Engine.ifReading, hd]

theorem exec_next_accept {s : State} (hs : s.Ready) (hd : s.self.drv = .reading) (n : Fin 65) :
    exec (.next n.val) s = .next { s with self := s.self.accept (.next n) } := by
  rw [exec_eq_issue, Engine.issue_next_accept hs.1 hs.2 hd]

/-- Settles O15: the count is checked before the driver state, and each check ends in its error alone. -/
theorem nextChecksCountThenDriver : Obligations.NextChecksCountThenDriver := by
  unfold Obligations.NextChecksCountThenDriver
  intro s n ⟨hb, he⟩
  refine ⟨fun hn => ?_, fun hn hd => ?_⟩
  · rw [exec_eq_issue, Engine.issue_next_badLength hb he hn]; rfl
  · rw [exec_eq_issue, Engine.issue_next_wrongState hb he hn hd]; rfl

/-! ### Completion, by PADSTATE -/

theorem Engine.complete_next {e : Engine} {n : Fin 65} (hp : e.pend = some (.next n)) :
    e.complete = (e.nextBody n.val).retire := by
  simp only [Engine.complete, hp]

theorem Engine.complete_next_reading {e : Engine} {n : Fin 65} (hp : e.pend = some (.next n))
    (hs : e.padState = .reading) : e.complete = (e.nextData n.val).retire := by
  rw [Engine.complete_next hp, Engine.nextBody, hs]

theorem Engine.complete_next_onePadEmitted {e : Engine} {n : Fin 65} (hp : e.pend = some (.next n))
    (hs : e.padState = .onePadEmitted) : e.complete = e.nextPadOnly.retire := by
  rw [Engine.complete_next hp, Engine.nextBody, hs]

theorem Engine.complete_next_done {e : Engine} {n : Fin 65} (hp : e.pend = some (.next n))
    (hs : e.padState = .done) : e.complete = e.digestCommit.retire := by
  rw [Engine.complete_next hp, Engine.nextBody, hs]

/-- Settles O16: an accepted NEXT completes as `NextData`, whose block `nextData_eq` gives byte by byte. -/
theorem nextFoldsPaddedDataBlock : Obligations.NextFoldsPaddedDataBlock := by
  unfold Obligations.NextFoldsPaddedDataBlock
  intro s n hready hd hs
  have hcomplete := (s.self.accept (.next n)).complete_next_reading (n := n) rfl hs
  rw [Engine.nextData_eq _ _ (by omega)] at hcomplete
  refine ⟨_, _, exec_next_accept hready hd n, rfl, compressScratch_blk s.self.alg s.self.h _ s.self.scratch, ?_⟩
  rw [compressScratch_blk]
  exact hcomplete

/-- Settles O17: an accepted NEXT completes as `NextPadOnly`, whose block `nextPadOnly_eq` gives byte by byte. -/
theorem nextFoldsPadOnlyBlock : Obligations.NextFoldsPadOnlyBlock := by
  unfold Obligations.NextFoldsPadOnlyBlock
  intro s n hready hd hs
  have hcomplete := (s.self.accept (.next n)).complete_next_onePadEmitted (n := n) rfl hs
  rw [Engine.nextPadOnly_eq] at hcomplete
  refine ⟨_, _, exec_next_accept hready hd n, rfl, compressScratch_blk s.self.alg s.self.h _ s.self.scratch, ?_⟩
  rw [compressScratch_blk]
  exact hcomplete

/-! ### Who moves PADSTATE -/

/-- A completion moves PADSTATE along the table of 40_padder.md R111 or leaves it. -/
theorem Engine.complete_padState_cases (e : Engine) (hne : e.complete.padState ≠ e.padState) :
    ∃ n : Fin 65, e.pend = some (.next n) ∧
      ((e.padState = .reading ∧ n.val < 56 ∧ e.complete.padState = .done) ∨
       (e.padState = .reading ∧ 56 ≤ n.val ∧ n.val ≤ 63 ∧ e.complete.padState = .onePadEmitted) ∨
       (e.padState = .onePadEmitted ∧ e.complete.padState = .done)) := by
  rcases e.complete_cases with ⟨-, h⟩ | ⟨n, hp, hs, h⟩ | ⟨n, hp, hs, h⟩ | ⟨n, -, -, h⟩ | ⟨-, h⟩ <;> rw [h] at hne ⊢
  · exact absurd rfl hne
  · have hmove : (e.nextData n.val).retire.padState =
        if n.val = 64 then .reading else if n.val < 56 then .done else .onePadEmitted := by
      rw [Engine.nextData_eq e n.val (by omega), Engine.retire_padState]
    rw [hmove] at hne ⊢
    refine ⟨n, hp, ?_⟩
    by_cases h64 : n.val = 64
    · exact absurd (by rw [if_pos h64, hs]) hne
    · by_cases h56 : n.val < 56
      · exact .inl ⟨hs, h56, by simp [h64, h56]⟩
      · exact .inr (.inl ⟨hs, by omega, by omega, by simp [h64, h56]⟩)
  · exact ⟨n, hp, .inr (.inr ⟨hs, rfl⟩)⟩
  · exact absurd rfl hne
  · exact absurd rfl hne

@[simp] theorem Engine.recordBusyViolation_padState (e : Engine) : e.recordBusyViolation.padState = e.padState := by
  rcases e.recordBusyViolation_cases with ⟨-, h⟩ | ⟨-, h⟩ <;> rw [h]

/-- The host moves PADSTATE by INIT and reset alone, to READING. -/
theorem State.HostChange.padState_eq {s : State} {e e' : Engine} (h : s.HostChange e e')
    (hne : e'.padState ≠ e.padState) : (s.NextLegalInit e.page ∨ s.NextReset e.page) ∧ e'.padState = .reading := by
  cases h with
  | initLegal _ n a c h hd ha => exact ⟨.inl (State.nextLegalInit_of_write h hd ha), rfl⟩
  | resets h => exact ⟨.inr h, rfl⟩
  | _ => exact absurd (by simp) hne

/-- Settles O20: by the cases of a completion and of the host's changes. -/
theorem padStateMovesOnlyAlongTable : Obligations.PadStateMovesOnlyAlongTable := by
  unfold Obligations.PadStateMovesOnlyAlongTable
  intro s t h k e e' he he' hne
  rcases (moves_of_step h he he').changes with ⟨j, -, -, rfl⟩ | ⟨hk, -, rfl⟩ | ⟨-, hc⟩
  · exact absurd rfl hne
  · exact .inr ⟨hk, e.complete_padState_cases hne⟩
  · exact .inl (hc.padState_eq hne)

end Sys2Proof.Machine
end

section
/-! SUPPORT. The padded stream of a message (40_padder.md R114): its shape, and how it falls into the blocks the padder
emits (R104, R105), and the fold of its blocks. -/

namespace Sys2Proof.Machine

/-- What follows a message of `len` bytes in its padded stream, the bit count `bc` in the length field (40_padder.md
R114): tied to the model by `paddedStream_eq`. -/
def padding (len : Nat) (bc : BitVec 64) (alg : Alg) : List Byte :=
  padMarker :: (zeros (padZeroCount len) ++ len8 bc alg)

theorem paddedStream_eq (msg : List Byte) (alg : Alg) :
    paddedStream msg alg = msg ++ padding msg.length (BitVec.ofNat 64 (8 * msg.length)) alg := by
  simp [paddedStream, padding]

/-- The zeros bring marker and length field to the end of a block. -/
theorem add_padZeroCount (len : Nat) :
    len + (padZeroCount len + 9) = 64 * (len / 64 + 1 + if 56 ≤ len % 64 then 1 else 0) := by
  simp only [padZeroCount]
  split_ifs <;> omega

@[simp] theorem padding_length (len : Nat) (bc : BitVec 64) (alg : Alg) :
    (padding len bc alg).length = padZeroCount len + 9 := by
  simp [padding]

theorem length_append_padding (d : List Byte) (bc : BitVec 64) (alg : Alg) :
    (d ++ padding d.length bc alg).length = 64 * (d.length / 64 + 1 + if 56 ≤ d.length % 64 then 1 else 0) := by
  rw [List.length_append, padding_length, add_padZeroCount]

/-- Settles O22: the stream is the message, the marker, the zeros and the length field in a row. -/
theorem paddedStreamShape : Obligations.PaddedStreamShape := by
  unfold Obligations.PaddedStreamShape
  intro msg alg p
  have hp : p = msg ++ padding msg.length (BitVec.ofNat 64 (8 * msg.length)) alg := paddedStream_eq msg alg
  have hlen : p.length - 8 = msg.length + 1 + padZeroCount msg.length := by
    rw [hp, List.length_append, padding_length]; omega
  refine ⟨by rw [hp, length_append_padding], by rw [hp, List.take_left], by simp [hp, padding, padMarker],
    fun j hlt hlt' => ?_, ?_⟩
  · obtain ⟨i, rfl⟩ : ∃ i, j = msg.length + (i + 1) := ⟨j - msg.length - 1, by omega⟩
    have hi : i < padZeroCount msg.length := by omega
    rw [hp, List.getElem?_append_right (by omega), Nat.add_sub_cancel_left, padding, List.getElem?_cons_succ,
      List.getElem?_append_left (by simpa using hi), zeros, List.getElem?_replicate_of_lt hi]
    rfl
  · have hsplit : p = (msg ++ padMarker :: zeros (padZeroCount msg.length)) ++
        len8 (BitVec.ofNat 64 (8 * msg.length)) alg := by simp [hp, padding]
    rw [hlen, hsplit, List.drop_left' (by simp; omega)]

/-! ### The stream in blocks -/

/-- What the padder still has to emit with `bc` bits counted and the bytes `msg` to come: tied to the model by
`paddedFrom_zero`. -/
def paddedFrom (bc : BitVec 64) (msg : List Byte) (alg : Alg) : List Byte :=
  msg ++ padding msg.length (bc + BitVec.ofNat 64 (8 * msg.length)) alg

theorem paddedFrom_zero (msg : List Byte) (alg : Alg) : paddedFrom 0 msg alg = paddedStream msg alg := by
  rw [paddedStream_eq, paddedFrom, zero_add]

/-- The count after a full block and the rest is the count after all of it. -/
theorem bitCount_add_block (bc : BitVec 64) {len : Nat} (h : 64 ≤ len) :
    bc + BitVec.ofNat 64 (8 * 64) + BitVec.ofNat 64 (8 * (len - 64)) = bc + BitVec.ofNat 64 (8 * len) := by
  rw [BitVec.add_assoc, ← BitVec.ofNat_add]
  congr 2; omega

/-- A full block of the message goes into the stream as it is. -/
theorem paddedFrom_of_full {msg : List Byte} (h : 64 ≤ msg.length) (bc : BitVec 64) (alg : Alg) :
    paddedFrom bc msg alg = msg.take 64 ++ paddedFrom (bc + BitVec.ofNat 64 (8 * 64)) (msg.drop 64) alg := by
  have hmod : (msg.length - 64) % 64 = msg.length % 64 := by omega
  have hpad : ∀ b, padding (msg.length - 64) b alg = padding msg.length b alg := fun b => by
    simp only [padding, padZeroCount, hmod]
  rw [paddedFrom, paddedFrom, List.length_drop, bitCount_add_block bc h, hpad, ← List.append_assoc,
    List.take_append_drop]

/-- Less than 56 bytes end in one block, with room for the length. -/
theorem paddedFrom_of_lt {msg : List Byte} (h : msg.length < 56) (bc : BitVec 64) (alg : Alg) :
    paddedFrom bc msg alg = (padBlock msg (bc + BitVec.ofNat 64 (8 * msg.length)) alg).1 := by
  have hzeros : padZeroCount msg.length = 55 - msg.length := by simp only [padZeroCount]; omega
  simp [paddedFrom, padBlock, padding, hzeros, h, show msg.length ≠ 64 by omega]

/-- 56 to 63 bytes end in two blocks, the length in the pad-only block. -/
theorem paddedFrom_of_ge {msg : List Byte} (h : 56 ≤ msg.length) (h' : msg.length < 64) (bc : BitVec 64) (alg : Alg) :
    paddedFrom bc msg alg = (padBlock msg (bc + BitVec.ofNat 64 (8 * msg.length)) alg).1 ++
      padOnlyBlock (bc + BitVec.ofNat 64 (8 * msg.length)) alg := by
  have hzeros : zeros (padZeroCount msg.length) = zeros (63 - msg.length) ++ zeros 56 := by
    simp only [zeros, List.replicate_append_replicate, padZeroCount]
    congr 1; omega
  simp [paddedFrom, padBlock, padOnlyBlock, padding, hzeros, show ¬ msg.length < 56 by omega,
    show msg.length ≠ 64 by omega]

/-! ### Folding a stream -/

/-- All the blocks of a stream folded into a chaining state: `messageDigest` is its serialization, see
`messageDigest_eq`. -/
def foldStream (alg : Alg) (l : List Byte) (h : Vector Word 8) : Vector Word 8 := foldBlocks alg (l.length / 64) l h

theorem messageDigest_eq (alg : Alg) (msg : List Byte) :
    messageDigest alg msg = serialize (foldStream alg (paddedFrom 0 msg alg) (initialWords alg)) alg := by
  rw [paddedFrom_zero]; rfl

theorem foldStream_nil (alg : Alg) (h : Vector Word 8) : foldStream alg [] h = h := rfl

theorem foldStream_append {b : List Byte} (hb : b.length = 64) (alg : Alg) (l : List Byte) (h : Vector Word 8) :
    foldStream alg (b ++ l) h = foldStream alg l (compressWords alg h (bytesOf 64 b)) := by
  have hcount : (b ++ l).length / 64 = l.length / 64 + 1 := by rw [List.length_append]; omega
  rw [foldStream, hcount, foldBlocks, List.take_left' hb, List.drop_left' hb, foldStream]

theorem foldStream_block {b : List Byte} (hb : b.length = 64) (alg : Alg) (h : Vector Word 8) :
    foldStream alg b h = compressWords alg h (bytesOf 64 b) := by
  have hfold := foldStream_append hb alg [] h
  rwa [List.append_nil, foldStream_nil] at hfold

/-- A full block of data is its own block (40_padder.md R104). -/
theorem padBlock_of_full {d : List Byte} (h : d.length = 64) (bc : BitVec 64) (alg : Alg) :
    padBlock d bc alg = (d, .reading) := if_pos h

end Sys2Proof.Machine
end

section
/-! SUPPORT. The driver loop (44_driver.md R186, 40_padder.md R115): each NEXT folds its block of the padded stream, so the
NEXT commands of a message fold all of it. -/

namespace Sys2Proof.Machine

/-- A computation between two NEXT commands, with the chaining state, the bit count and the padder state it has reached
and no error recorded. -/
structure Engine.Running (alg : Alg) (h : Vector Word 8) (bc : BitVec 64) (p : PadState) (e : Engine) : Prop where
  idle : e.busy = false
  noErr : e.err = false
  noErrCode : e.errCode = .none
  reading : e.drv = .reading
  alg_eq : e.alg = alg
  h_eq : e.h = h
  bitCount_eq : e.bitCount = bc
  padState_eq : e.padState = p

theorem Engine.initLegal_running (alg : Alg) {e : Engine} (hb : e.busy = false) :
    (e.initLegal alg).Running alg (initialWords alg) 0 .reading :=
  ⟨hb, rfl, rfl, rfl, rfl, rfl, rfl, rfl⟩

@[simp] theorem Engine.accept_bufPrefix (c : InFlight) (e : Engine) (n : Nat) :
    (e.accept c).bufPrefix n = e.bufPrefix n := rfl

/-- The bytes the host loaded are the ones NEXT of their number reads. -/
theorem Engine.bufPrefix_loadBytes {d : List Byte} (hd : d.length ≤ 64) (e : Engine) :
    (e.loadBytes d).bufPrefix d.length = d := by
  apply List.ext_getElem
  · exact bufPrefix_length _ _ hd
  · intro i hi hi'
    simp [Engine.bufPrefix, hi']

namespace Engine.Running
variable {alg : Alg} {h : Vector Word 8} {bc : BitVec 64} {p : PadState} {e : Engine}

theorem runNext_eq (hr : e.Running alg h bc p) {d : List Byte} (hd : d.length < 65) :
    e.runNext d = ((e.loadBytes d).accept (.next ⟨d.length, hd⟩)).complete := by
  rw [← Engine.issue_next_accept (e := e.loadBytes d) (by simpa using hr.idle) (by simpa using hr.noErr)
    (by simpa using hr.reading)]
  rfl

/-- NEXT in READING folds the padded data block. -/
theorem runNext_reading (hr : e.Running alg h bc .reading) {d : List Byte} (hd : d.length ≤ 64) :
    (e.runNext d).Running alg
      (compressWords alg h (bytesOf 64 (padBlock d (bc + BitVec.ofNat 64 (8 * d.length)) alg).1))
      (bc + BitVec.ofNat 64 (8 * d.length)) (padBlock d (bc + BitVec.ofNat 64 (8 * d.length)) alg).2 := by
  rw [hr.runNext_eq (by omega), Engine.complete_next_reading rfl (by simpa using hr.padState_eq)]
  have hbuf := Engine.bufPrefix_loadBytes hd e
  obtain ⟨-, herr, hcode, hdrv, rfl, rfl, rfl, -⟩ := hr
  refine ⟨rfl, ?_, ?_, ?_, ?_, ?_, ?_, ?_⟩ <;> simp [Engine.nextData, *]

/-- The pad-only NEXT folds the pad-only block. -/
theorem runNext_onePadEmitted (hr : e.Running alg h bc .onePadEmitted) :
    (e.runNext []).Running alg (compressWords alg h (bytesOf 64 (padOnlyBlock bc alg))) bc .done := by
  rw [hr.runNext_eq (by decide), Engine.complete_next_onePadEmitted rfl (by simpa using hr.padState_eq)]
  obtain ⟨-, herr, hcode, hdrv, rfl, rfl, rfl, -⟩ := hr
  refine ⟨rfl, ?_, ?_, ?_, ?_, ?_, ?_, ?_⟩ <;> simp [Engine.nextPadOnly, *]

/-- The NEXT in DONE commits the digest. -/
theorem runNext_done (hr : e.Running alg h bc .done) :
    e.runNext [] = ((e.loadBytes []).accept (.next 0)).digestCommit.retire := by
  rw [hr.runNext_eq (by decide), Engine.complete_next_done rfl (by simpa using hr.padState_eq)]
  rfl

/-- A NEXT of a full block folds that block and stays in READING. -/
theorem runNext_full (hr : e.Running alg h bc .reading) {d : List Byte} (hd : d.length = 64) :
    (e.runNext d).Running alg (compressWords alg h (bytesOf 64 d)) (bc + BitVec.ofNat 64 (8 * 64)) .reading := by
  have hnext := hr.runNext_reading (d := d) (by omega)
  rwa [hd, padBlock_of_full hd] at hnext

end Engine.Running

/-! ### The NEXT commands of a message -/

/-- The NEXT commands of a message but the last, which commits the digest: tied to the model by `messageNexts_eq`. -/
def blockNexts (msg : List Byte) : List (List Byte) :=
  chunksOf (msg.length / 64) msg ++ if 56 ≤ msg.length % 64 then [[]] else []

theorem messageNexts_eq (msg : List Byte) : messageNexts msg = blockNexts msg ++ [[]] := rfl

theorem chunksOf_length (k : Nat) (msg : List Byte) : (chunksOf k msg).length = k + 1 := by
  induction k generalizing msg with
  | zero => rfl
  | succ k ih => rw [chunksOf, List.length_cons, ih]

theorem messageNexts_length (msg : List Byte) :
    (messageNexts msg).length = msg.length / 64 + 2 + if 56 ≤ msg.length % 64 then 1 else 0 := by
  simp only [messageNexts, List.length_append, chunksOf_length, List.length_singleton]
  split_ifs <;> simp

theorem blockNexts_of_full {msg : List Byte} (h : 64 ≤ msg.length) :
    blockNexts msg = msg.take 64 :: blockNexts (msg.drop 64) := by
  have hdiv : msg.length / 64 = (msg.length - 64) / 64 + 1 := by omega
  have hmod : (msg.length - 64) % 64 = msg.length % 64 := by omega
  simp only [blockNexts, List.length_drop, hmod, hdiv, chunksOf, List.cons_append]

theorem blockNexts_of_lt {msg : List Byte} (h : msg.length < 56) : blockNexts msg = [msg] := by
  simp [blockNexts, chunksOf, show msg.length / 64 = 0 by omega, show msg.length % 64 = msg.length by omega, h]

theorem blockNexts_of_ge {msg : List Byte} (h : 56 ≤ msg.length) (h' : msg.length < 64) :
    blockNexts msg = [msg, []] := by
  simp [blockNexts, chunksOf, show msg.length / 64 = 0 by omega, show msg.length % 64 = msg.length by omega, h]

/-- The NEXT commands of a message fold all of its padded stream: one block of it each, by induction on the number of
full chunks. -/
theorem Engine.Running.foldl_blockNexts {alg : Alg} {h : Vector Word 8} {bc : BitVec 64} {e : Engine}
    (hr : e.Running alg h bc .reading) (msg : List Byte) :
    ((blockNexts msg).foldl (fun e d => e.runNext d) e).Running alg (foldStream alg (paddedFrom bc msg alg) h)
      (bc + BitVec.ofNat 64 (8 * msg.length)) .done := by
  induction hk : msg.length / 64 generalizing h bc e msg with
  | zero =>
    have hlt : msg.length < 64 := by omega
    have hdata := hr.runNext_reading (d := msg) hlt.le
    have hblock := padBlock_length msg (bc + BitVec.ofNat 64 (8 * msg.length)) alg hlt.le
    rw [padBlock_state, if_neg (by omega)] at hdata
    by_cases h56 : msg.length < 56
    · rw [if_pos h56] at hdata
      rw [blockNexts_of_lt h56, paddedFrom_of_lt h56, foldStream_block hblock]
      exact hdata
    · rw [if_neg h56] at hdata
      rw [blockNexts_of_ge (by omega) hlt, paddedFrom_of_ge (by omega) hlt, foldStream_append hblock,
        foldStream_block (padOnlyBlock_length _ _)]
      exact hdata.runNext_onePadEmitted
  | succ k ih =>
    have hge : 64 ≤ msg.length := by omega
    have htake : (msg.take 64).length = 64 := by simp [hge]
    have hrest := ih (hr.runNext_full htake) (msg.drop 64) (by rw [List.length_drop]; omega)
    rw [List.length_drop, bitCount_add_block bc hge] at hrest
    rw [blockNexts_of_full hge, paddedFrom_of_full hge, foldStream_append htake]
    exact hrest

theorem Engine.driverLoop_eq (alg : Alg) (msg : List Byte) (e : Engine) :
    e.driverLoop alg msg = ((blockNexts msg).foldl (fun e d => e.runNext d) (e.initLegal alg)).runNext [] := by
  rw [Engine.driverLoop, messageNexts_eq, List.foldl_concat]

/-- Settles O23: after INIT the NEXT commands up to the last fold the padded stream, and the last commits its digest. -/
theorem driverLoopComputesMessageDigest : Obligations.DriverLoopComputesMessageDigest := by
  unfold Obligations.DriverLoopComputesMessageDigest
  intro alg msg e hb
  have hdone := (Engine.initLegal_running alg hb).foldl_blockNexts msg
  rw [zero_add] at hdone
  rw [Engine.driverLoop_eq, hdone.runNext_done]
  refine ⟨messageNexts_length msg, ?_, rfl, rfl, by simpa using hdone.noErr, by simpa using hdone.noErrCode,
    by simpa using hdone.bitCount_eq⟩
  simp [hdone.h_eq, hdone.alg_eq, messageDigest_eq]

end Sys2Proof.Machine
end

section
/-! SUPPORT. The permuter and the constants of 41_permuter_rom.md: block words as bus words, the MD5 round tables, the
SHA-256 constants as roots of primes, and the role-table form of the MD5 rounds. -/

namespace Sys2Proof.Machine

/-! ### The role-table form of the MD5 rounds -/

/-- The registers in the places P0 to P3 where the role table of R131 expects them in round `i`. -/
def Md5Regs.places (i : Nat) (r : Md5Regs) : Vector Word 4 :=
  match i % 4 with
  | 0 => #v[r.a, r.b, r.c, r.d]
  | 1 => #v[r.b, r.c, r.d, r.a]
  | 2 => #v[r.c, r.d, r.a, r.b]
  | _ => #v[r.d, r.a, r.b, r.c]

/-- A round in place agrees with a rotating round: it leaves the registers where the next round's roles look for them. -/
theorem md5PlaceRound_places (M : Vector Word 16) (i : Nat) (r : Md5Regs) :
    md5PlaceRound M i (r.places i) = (md5Round M i r).places (i + 1) := by
  have hi : i % 4 = 0 ∨ i % 4 = 1 ∨ i % 4 = 2 ∨ i % 4 = 3 := by omega
  rcases hi with h | h | h | h <;>
    simp [md5PlaceRound, md5Round, Md5Regs.places, Rom.md5Role, Rom.md5Roles, Nat.add_mod, h]

theorem md5PlaceRounds_places (M : Vector Word 16) (r : Md5Regs) (n : Nat) :
    md5PlaceRounds M (r.places 0) n = (md5Rounds M r n).places n := by
  induction n with
  | zero => rfl
  | succ i ih => rw [md5PlaceRounds, ih, md5PlaceRound_places, md5Rounds]

/-- Settles O29: by induction on the rounds the places hold the rotating registers by the role table, and after 64 rounds,
a multiple of four, each register stands in its first place again. -/
theorem md5RoleTableFormIsEquivalent : Obligations.Md5RoleTableFormIsEquivalent := by
  intro M r
  exact md5PlaceRounds_places M r 64

/-! ### The MD5 round tables -/

/-- The message word that round `j` of the group `g` of 16 rounds reads (41_permuter_rom.md R129). -/
def md5GroupIdx (g : Fin 4) (j : Fin 16) : Fin 16 := Fin.ofNat 16 (Rom.md5Idx (16 * g.val + j.val))

theorem md5GroupIdx_val : ∀ g j, (md5GroupIdx g j).val = Rom.md5Idx (16 * g.val + j.val) := by decide

theorem md5GroupIdx_injective : ∀ g, Function.Injective (md5GroupIdx g) := by decide

/-- Each group reads each message word once: its indexes do not repeat, and a group has as many rounds as a block words. -/
theorem md5Idx_existsUnique (g : Fin 4) (k : Fin 16) : ∃! j : Fin 16, Rom.md5Idx (16 * g.val + j.val) = k.val := by
  simpa only [Fin.ext_iff, md5GroupIdx_val] using
    (Finite.injective_iff_bijective.mp (md5GroupIdx_injective g)).existsUnique k

theorem md5Fn_eq_md5F {i : Nat} (h : i < 16) (x y z : Word) : md5Fn i x y z = md5F x y z := if_pos h

theorem md5Fn_eq_md5G {i : Nat} (h : 16 ≤ i) (h' : i < 32) (x y z : Word) : md5Fn i x y z = md5G x y z := by
  rw [md5Fn, if_neg (by omega), if_pos h']

theorem md5Fn_eq_md5H {i : Nat} (h : 32 ≤ i) (h' : i < 48) (x y z : Word) : md5Fn i x y z = md5H x y z := by
  rw [md5Fn, if_neg (by omega), if_neg (by omega), if_pos h']

theorem md5Fn_eq_md5I {i : Nat} (h : 48 ≤ i) (x y z : Word) : md5Fn i x y z = md5I x y z := by
  rw [md5Fn, if_neg (by omega), if_neg (by omega), if_neg (by omega)]

/-- Settles O27: the amounts and the indexes are read off the tables, the permutation and the functions are proved group
by group. -/
theorem md5RoundTables : Obligations.Md5RoundTables := by
  refine ⟨by decide, by decide, by decide, md5Idx_existsUnique, fun j x y z => ⟨?_, ?_, ?_, ?_⟩⟩
  · exact md5Fn_eq_md5F (by omega) x y z
  · exact md5Fn_eq_md5G (by omega) (by omega) x y z
  · exact md5Fn_eq_md5H (by omega) (by omega) x y z
  · exact md5Fn_eq_md5I (by omega) x y z

/-! ### The SHA-256 constants -/

/-- The first 64 primes (41_permuter_rom.md R123). -/
def firstPrimes : List Nat :=
  [2, 3, 5, 7, 11, 13, 17, 19, 23, 29, 31, 37, 41, 43, 47, 53, 59, 61, 67, 71, 73, 79, 83, 89, 97, 101, 103, 107, 109,
   113, 127, 131, 137, 139, 149, 151, 157, 163, 167, 173, 179, 181, 191, 193, 197, 199, 211, 223, 227, 229, 233, 239,
   241, 251, 257, 263, 269, 271, 277, 281, 283, 293, 307, 311]

/-- Trial division below 312 finds the first 64 primes; the kernel alone runs it, as it is too deep for the elaborator. -/
theorem trialDivision_eq_firstPrimes :
    ((List.range 312).filter fun p => decide (2 ≤ p) && (List.range p).all fun d => d < 2 || p % d != 0) =
      firstPrimes := by
  decide +kernel

theorem shaK_cubeRoot : ∀ t : Fin 64, ∃ f : Fin 8,
    (f.val * 2 ^ 32 + (Rom.shaK t.val).toNat) ^ 3 ≤ firstPrimes.getD t.val 0 * 2 ^ 96 ∧
    firstPrimes.getD t.val 0 * 2 ^ 96 < (f.val * 2 ^ 32 + (Rom.shaK t.val).toNat + 1) ^ 3 := by decide

theorem iv256_squareRoot : ∀ j : Fin 8, ∃ f : Fin 8,
    (f.val * 2 ^ 32 + (Rom.iv256[j]).toNat) ^ 2 ≤ firstPrimes.getD j.val 0 * 2 ^ 64 ∧
    firstPrimes.getD j.val 0 * 2 ^ 64 < (f.val * 2 ^ 32 + (Rom.iv256[j]).toNat + 1) ^ 2 := by decide

/-- Settles O28: the filtered list is the first 64 primes, and each constant meets the bounds of its prime's root. -/
theorem sha256ConstantsAreRootFractions : Obligations.Sha256ConstantsAreRootFractions := by
  unfold Obligations.Sha256ConstantsAreRootFractions
  rw [trialDivision_eq_firstPrimes]
  exact ⟨rfl, shaK_cubeRoot, iv256_squareRoot⟩

/-! ### The word-order permuter -/

theorem blockWords_md5_getElem (b : Vector Byte 64) (k : Fin 16) :
    (blockWords b .md5)[k] = le32 b[4 * k.val] b[4 * k.val + 1] b[4 * k.val + 2] b[4 * k.val + 3] := by
  simp [blockWords]

theorem blockWords_sha256_getElem (b : Vector Byte 64) (k : Fin 16) :
    (blockWords b .sha256)[k] = be32 b[4 * k.val] b[4 * k.val + 1] b[4 * k.val + 2] b[4 * k.val + 3] := by
  simp [blockWords]

/-- Settles O31: both permuters pack the four bytes that the bus word of BUF packs, the SHA-256 one in the other order. -/
theorem blockWordsAreBusWords : Obligations.BlockWordsAreBusWords := by
  intro e w k
  have hlane (j : Nat) (hj : j < 4) : byteOf (e.readReg w (.buf k)) j = e.buf[4 * k.val + j] :=
    byteOf_le32_lane e.buf k.val (by omega) ⟨j, hj⟩
  refine ⟨blockWords_md5_getElem e.buf k, ?_⟩
  rw [blockWords_sha256_getElem, be32_eq_append, hlane 0 (by omega), hlane 1 (by omega), hlane 2 (by omega),
    hlane 3 (by omega)]
  rfl

end Sys2Proof.Machine
end

section
/-! SUPPORT. The compression functions (42_compression.md R140 to R160): the SHA-256 word functions with Lean's own
rotations, the rounds of both algorithms, and COMPRESS from its acceptance to its completion. -/

namespace Sys2Proof.Machine

/-! ### Ch and Maj, bit by bit -/

theorem bitXor_select (e f g : Bool) : ((e && f) ^^ (!e && g)) = if e then f else g := by
  cases e <;> simp

theorem bitXor_majority (a b c : Bool) :
    ((a && b) ^^ (a && c) ^^ (b && c)) = decide (2 ≤ a.toNat + b.toNat + c.toNat) := by
  revert a b c; decide

theorem ch_getLsbD (e f g : Word) (i : Nat) :
    (ch e f g).getLsbD i = if e.getLsbD i then f.getLsbD i else g.getLsbD i := by
  by_cases hi : i < 32
  · simp only [ch, BitVec.getLsbD_xor, BitVec.getLsbD_and, BitVec.getLsbD_not, hi, decide_true, Bool.true_and]
    exact bitXor_select _ _ _
  · simp [BitVec.getLsbD_of_ge _ i (Nat.le_of_not_lt hi)]

theorem maj_getLsbD (a b c : Word) (i : Nat) :
    (maj a b c).getLsbD i =
      decide (2 ≤ (a.getLsbD i).toNat + (b.getLsbD i).toNat + (c.getLsbD i).toNat) := by
  simp only [maj, BitVec.getLsbD_xor, BitVec.getLsbD_and]
  exact bitXor_majority _ _ _

/-- Settles O32: each operation acts on every bit position alone, where it is a fact about three Booleans. -/
theorem chooseAndMajorityBitwise : Obligations.ChooseAndMajorityBitwise :=
  ⟨ch_getLsbD, maj_getLsbD⟩

/-! ### SHA-256 -/

theorem smallSigma0_eq (x : Word) : smallSigma0 x = x.rotateRight 7 ^^^ x.rotateRight 18 ^^^ x >>> 3 := by
  simp [smallSigma0, rotr_eq_rotateRight, shr]

theorem smallSigma1_eq (x : Word) : smallSigma1 x = x.rotateRight 17 ^^^ x.rotateRight 19 ^^^ x >>> 10 := by
  simp [smallSigma1, rotr_eq_rotateRight, shr]

theorem bigSigma0_eq (x : Word) : bigSigma0 x = x.rotateRight 2 ^^^ x.rotateRight 13 ^^^ x.rotateRight 22 := by
  simp [bigSigma0, rotr_eq_rotateRight]

theorem bigSigma1_eq (x : Word) : bigSigma1 x = x.rotateRight 6 ^^^ x.rotateRight 11 ^^^ x.rotateRight 25 := by
  simp [bigSigma1, rotr_eq_rotateRight]

/-- The schedule words from 16 on follow the recurrence (42_compression.md R145, R146). -/
theorem shaBlockSchedule_recurrence (blk : Vector Byte 64) {t : Nat} (h : 16 ≤ t) (h' : t < 64) :
    (shaBlockSchedule blk).getD t 0 =
      smallSigma1 ((shaBlockSchedule blk).getD (t - 2) 0) + (shaBlockSchedule blk).getD (t - 7) 0 +
        smallSigma0 ((shaBlockSchedule blk).getD (t - 15) 0) + (shaBlockSchedule blk).getD (t - 16) 0 :=
  scheduleExtend_getD 48 (blockWords blk .sha256).toList (by simp) t (by simpa using h) (by simpa using h')

/-- Settles O25: the schedule by the laws of its extension, a round by unfolding it once, the rotations as Lean's own. -/
theorem sha256FollowsRoundEquations : Obligations.Sha256FollowsRoundEquations := by
  unfold Obligations.Sha256FollowsRoundEquations
  intro hin blk W R
  refine ⟨shaBlockSchedule_length blk, fun t => ?_, fun t h h' => ?_, rfl, fun t _ => ?_, rfl⟩
  · rw [← be32_eq_append, ← blockWords_sha256_getElem]
    exact shaBlockSchedule_block blk t.val t.isLt
  · rw [← smallSigma0_eq, ← smallSigma1_eq]
    exact shaBlockSchedule_recurrence blk h h'
  · dsimp only
    rw [← bigSigma0_eq, ← bigSigma1_eq]
    rfl

/-! ### MD5 -/

/-- The index rule of each group of 16 rounds gives the table's message word (41_permuter_rom.md R129). -/
theorem md5Idx_eq_rule : ∀ i : Fin 64, Rom.md5Idx i.val =
    if i.val < 16 then i.val
    else if i.val < 32 then (5 * i.val + 1) % 16
    else if i.val < 48 then (3 * i.val + 5) % 16
    else (7 * i.val) % 16 := by decide

/-- Each group of 16 rounds rotates by its own four amounts in turn (41_permuter_rom.md R128). -/
theorem md5S_eq_rule : ∀ i : Fin 64, Rom.md5S i.val =
    if i.val < 16 then [7, 12, 17, 22].getD (i.val % 4) 0
    else if i.val < 32 then [5, 9, 14, 20].getD (i.val % 4) 0
    else if i.val < 48 then [4, 11, 16, 23].getD (i.val % 4) 0
    else [6, 10, 15, 21].getD (i.val % 4) 0 := by decide

theorem md5S_lt_32 (i : Fin 64) : Rom.md5S i.val < 32 := by
  obtain ⟨-, hamount, -⟩ := md5RoundTables
  exact (hamount i).2.trans_lt (by decide)

/-- What a round gives its active register, with Lean's own rotation (42_compression.md R155). -/
theorem md5Active_eq_rotateLeft (M : Vector Word 16) (i : Fin 64) (a b c d : Word) :
    md5Active M i.val a b c d =
      b + (a + md5Fn i.val b c d + M.getD (Rom.md5Idx i.val) 0 + Rom.md5T i.val).rotateLeft (Rom.md5S i.val) := by
  rw [md5Active, rotl_eq_rotateLeft _ _ (md5S_lt_32 i)]

/-- Settles O26: a round is its model with the index and amount tables read by their rules and Lean's own rotation. -/
theorem md5FollowsRoundEquations : Obligations.Md5FollowsRoundEquations := by
  unfold Obligations.Md5FollowsRoundEquations
  intro hin blk M R
  refine ⟨fun k => ?_, rfl, fun i => ?_, rfl⟩
  · rw [← le32_eq_append]
    exact blockWords_md5_getElem blk k
  · intro r f idx amount
    have hactive := md5Active_eq_rotateLeft M i r.a r.b r.c r.d
    rw [md5Idx_eq_rule i, md5S_eq_rule i] at hactive
    exact congrArg (fun w => (⟨r.d, w, r.b, r.c⟩ : Md5Regs)) hactive

/-! ### COMPRESS -/

theorem decode_compress : decode 0x00000003#32 = .ok .compress := by decide

theorem Engine.issue_compress_accept {e : Engine} (hb : e.busy = false) (he : e.err = false)
    (hd : e.drv = .reading) : e.issue .compress = e.accept .compress := by
  simp [Engine.issue, hb, he, Engine.ifReading, hd]

theorem Engine.issue_compress_wrongState {e : Engine} (hb : e.busy = false) (he : e.err = false)
    (hd : e.drv ≠ .reading) : e.issue .compress = e.raiseError .wrongState := by
  simp [Engine.issue, hb, he, Engine.ifReading, hd]

theorem Engine.complete_compress {e : Engine} (hp : e.pend = some .compress) :
    e.complete = (e.compress e.buf).retire := by
  simp only [Engine.complete, hp, Engine.compressBody]

/-- Settles O24: the driver check decides between acceptance and WRONG_STATE, and an accepted COMPRESS completes by
folding BUF, the block it leaves in BLK. -/
theorem compressFoldsBuffer : Obligations.CompressFoldsBuffer := by
  unfold Obligations.CompressFoldsBuffer
  refine ⟨decode_compress, fun s ⟨hb, he⟩ => ⟨fun hd => ?_, fun hd => ?_⟩⟩
  · refine ⟨{ s with self := s.self.accept .compress },
      compressScratch s.self.alg s.self.h s.self.buf s.self.scratch, ?_, rfl, compressScratch_blk _ _ _ _, ?_⟩
    · rw [exec_eq_issue, Engine.issue_compress_accept hb he hd]
    · exact Engine.complete_compress rfl
  · rw [exec_eq_issue, Engine.issue_compress_wrongState hb he hd]
    rfl

end Sys2Proof.Machine
end

section
/-! SUPPORT. DIGEST (43_digest.md R170 to R172): the serializer byte by byte, the NEXT that commits it, what FINISHED
refuses, and who writes DIGEST. -/

namespace Sys2Proof.Machine

/-! ### The serializer, byte by byte -/

theorem be32bytes_getD (w : Word) (j : Fin 4) : (be32bytes w).getD j.val 0 = byteOf w (3 - j.val) := by
  match j with
  | 0 | 1 | 2 | 3 => rfl

theorem le32bytes_getD (w : Word) (j : Fin 4) : (le32bytes w).getD j.val 0 = byteOf w j.val := by
  match j with
  | 0 | 1 | 2 | 3 => rfl

/-- When every word gives four bytes, those of word `k` stand from place `4k` on. -/
theorem flatMap_ofFn_getD {f : Word → List Byte} (hf : ∀ w, (f w).length = 4) {n : Nat} (g : Fin n → Word)
    (k : Fin n) (j : Fin 4) : ((List.ofFn g).flatMap f).getD (4 * k.val + j.val) 0 = (f (g k)).getD j.val 0 := by
  induction n with
  | zero => exact k.elim0
  | succ n ih =>
    rw [List.ofFn_succ, List.flatMap_cons]
    cases k using Fin.cases with
    | zero => rw [List.getD_append _ _ _ _ (by rw [hf, Fin.val_zero]; omega), Fin.val_zero, Nat.mul_zero, Nat.zero_add]
    | succ k =>
      have hplace : 4 * k.succ.val + j.val - (f (g 0)).length = 4 * k.val + j.val := by
        rw [hf, Fin.val_succ]; omega
      rw [List.getD_append_right _ _ _ _ (by rw [hf, Fin.val_succ]; omega), hplace, ih]

/-- SHA-256: the eight words, big-endian. -/
theorem serialize_sha256_getElem (h : Vector Word 8) (k : Fin 8) (j : Fin 4) :
    (serialize h .sha256)[4 * k.val + j.val] = byteOf h[k] (3 - j.val) := by
  have hwords : serializeBytes h .sha256 = (List.ofFn fun i : Fin 8 => h[i]).flatMap be32bytes := by
    simp [serializeBytes, List.ofFn_succ]
  rw [serialize_getElem, hwords, flatMap_ofFn_getD (fun _ => rfl), be32bytes_getD]

/-- MD5: the first four words, little-endian. -/
theorem serialize_md5_getElem (h : Vector Word 8) (k j : Fin 4) :
    (serialize h .md5)[4 * k.val + j.val] = byteOf h[k.val] j.val := by
  have hwords : serializeBytes h .md5 = (List.ofFn fun i : Fin 4 => h[i.val]).flatMap le32bytes ++ zeros 16 := by
    simp [serializeBytes, List.ofFn_succ]
  rw [serialize_getElem, hwords, List.getD_append _ _ _ _ (by simp [le32bytes]; omega),
    flatMap_ofFn_getD (fun _ => rfl), le32bytes_getD]

/-- MD5: zeros after them. -/
theorem serialize_md5_getElem_tail (h : Vector Word 8) (j : Fin 16) : (serialize h .md5)[16 + j.val] = 0 := by
  have htail : ((serialize h .md5).toList.drop 16).getD j.val 0 = 0 := by rw [serialize_md5_tail, zeros_getD]
  simpa using htail

/-! ### The commit -/

theorem Engine.issue_abort_wrongState {e : Engine} (hb : e.busy = false) (he : e.err = false)
    (hd : e.drv ≠ .reading) : e.issue .abort = e.raiseError .wrongState := by
  simp [Engine.issue, hb, he, Engine.ifReading, hd]

/-- Settles O19: an accepted NEXT in DONE completes as `DigestCommit`, whose digest is the serialization of H; from
FINISHED the driver check stops each command. -/
theorem nextCommitsDigest : Obligations.NextCommitsDigest := by
  unfold Obligations.NextCommitsDigest
  refine ⟨fun s n hready hd hs => ?_, fun s i ⟨hb, he⟩ hd hi => ?_⟩
  · refine ⟨_, serialize s.self.h s.self.alg, exec_next_accept hready hd n, rfl, fun ha => ?_, fun ha => ?_,
      (s.self.accept (.next n)).complete_next_done rfl hs⟩ <;> rw [ha]
    · exact serialize_sha256_getElem s.self.h
    · exact ⟨serialize_md5_getElem s.self.h, serialize_md5_getElem_tail s.self.h⟩
  · have hnot : s.self.drv ≠ .reading := by simp [hd]
    have hissue : s.self.issue i = s.self.raiseError .wrongState := by
      rcases hi with rfl | rfl | ⟨n, hn, rfl⟩
      · exact Engine.issue_compress_wrongState hb he hnot
      · exact Engine.issue_abort_wrongState hb he hnot
      · exact Engine.issue_next_wrongState hb he hn hnot
    rw [exec_eq_issue, hissue]
    rfl

/-! ### Who writes DIGEST -/

/-- A completion leaves DIGEST alone or is the commit. -/
theorem Engine.complete_digest (e : Engine) :
    e.complete.digest = e.digest ∨
    ((∃ n, e.pend = some (.next n)) ∧ e.padState = .done ∧ e.complete = e.digestCommit.retire) := by
  rcases e.complete_cases with ⟨-, h⟩ | ⟨n, -, -, h⟩ | ⟨n, -, -, h⟩ | ⟨n, hp, hs, h⟩ | ⟨-, h⟩
  · exact .inl (by rw [h])
  · exact .inl (by rw [h]; rfl)
  · exact .inl (by rw [h]; rfl)
  · exact .inr ⟨⟨n, hp⟩, hs, h⟩
  · exact .inl (by rw [h]; rfl)

@[simp] theorem Engine.recordBusyViolation_digest (e : Engine) : e.recordBusyViolation.digest = e.digest := by
  rcases e.recordBusyViolation_cases with ⟨-, h⟩ | ⟨-, h⟩ <;> rw [h]

/-- The host changes DIGEST by INIT and reset alone, to zeros. -/
theorem State.HostChange.digest_eq {s : State} {e e' : Engine} (h : s.HostChange e e') (hne : e'.digest ≠ e.digest) :
    (s.NextLegalInit e.page ∨ s.NextReset e.page) ∧ e'.digest = Vector.replicate 32 0 := by
  cases h with
  | initLegal _ n a c h hd ha => exact ⟨.inl (State.nextLegalInit_of_write h hd ha), rfl⟩
  | resets h => exact ⟨.inr h, rfl⟩
  | _ => exact absurd (by simp) hne

/-- Settles O39: by the cases of a completion and of the host's changes. -/
theorem digestWrittenOnlyByCommitAndInit : Obligations.DigestWrittenOnlyByCommitAndInit := by
  unfold Obligations.DigestWrittenOnlyByCommitAndInit
  intro s t h k e e' he he' hne
  rcases (moves_of_step h he he').changes with ⟨j, -, -, rfl⟩ | ⟨hk, -, rfl⟩ | ⟨-, hc⟩
  · exact absurd rfl hne
  · rcases e.complete_digest with hsame | ⟨hp, hs, hcommit⟩
    · exact absurd hsame hne
    · rw [hcommit]
      exact .inr ⟨hk, hs, hp, rfl, rfl, rfl⟩
  · exact .inl (hc.digest_eq hne)

end Sys2Proof.Machine
end

section
/-! SUPPORT. The driver's own commands (44_driver.md R180 to R190): what NOP, INIT and ABORT make of an idle engine, and
who moves DRV and ALG (R185, 10_state.md R33). -/

namespace Sys2Proof.Machine

/-! ### Illegal words, and an error recorded -/

theorem State.writeCmd_of_illegalWord {s : State} {c : Word} (hs : s.Ready) (hill : illegalWord c) :
    s.writeCmd c = .next { s with self := s.self.raiseError .illegalCommand } := by
  obtain ⟨x, hx⟩ := illegalWord_iff_decode_error.mp hill
  exact State.writeCmd_of_decode_error hs hx

/-- While an error is recorded every command but INIT is ignored (60_exceptions.md R214). -/
theorem Engine.issue_of_err {e : Engine} (hb : e.busy = false) (he : e.err = true) {i : Instr}
    (hi : ∀ a, i ≠ .init a) : e.issue i = e := by
  cases i with
  | init a => exact absurd rfl (hi a)
  | nop | next n | compress | abort => exact Engine.unlessBusyOrError_of_err _ _ hb he

theorem exec_of_err {s : State} (hb : s.self.busy = false) (he : s.self.err = true) {i : Instr}
    (hi : ∀ a, i ≠ .init a) : exec i s = .next s := by
  rw [exec_eq_issue, Engine.issue_of_err hb he hi]

/-! ### NOP -/

/-- NOP does nothing: with an error recorded it is ignored, with none its effect is the identity. -/
theorem Engine.issue_nop {e : Engine} (hb : e.busy = false) : e.issue .nop = e := by
  cases he : e.err with
  | true => exact Engine.issue_of_err hb he (by simp)
  | false => exact Engine.unlessBusyOrError_of_ready id e hb he

/-- Settles O10: NOP leaves an idle engine as it is, and a word with OP = 0 and another bit set stands in the list of
30_encoding.md R76. -/
theorem nopDoesNothing : Obligations.NopDoesNothing := by
  unfold Obligations.NopDoesNothing
  refine ⟨by decide, fun s hb => ?_, fun s c hs hop hc => State.writeCmd_of_illegalWord hs (.inr (.inl ⟨hop, hc⟩))⟩
  rw [exec_eq_issue, Engine.issue_nop hb]

/-! ### INIT -/

theorem Engine.issue_init_legal {e : Engine} (hb : e.busy = false) {n : Nat} {a : Alg} (ha : algOperand n = some a) :
    e.issue (.init n) = e.initLegal a := by
  simp only [Engine.issue, Engine.unlessBusy_of_idle _ _ hb, ha]

theorem Engine.issue_init_illegal {e : Engine} (hb : e.busy = false) {n : Nat} (hn : 1 < n) :
    e.issue (.init n) = e.initFail := by
  simp only [Engine.issue, Engine.unlessBusy_of_idle _ _ hb, algOperand_eq_none_iff.mpr hn]

/-- An INIT, legal or not, reads nothing that it writes: a second one changes nothing. -/
theorem Engine.issue_init_twice {e : Engine} (hb : e.busy = false) (n : Nat) :
    (e.issue (.init n)).issue (.init n) = e.issue (.init n) := by
  cases ha : algOperand n with
  | some a => rw [Engine.issue_init_legal hb ha, Engine.issue_init_legal (by simpa using hb) ha]; rfl
  | none =>
    have hn := algOperand_eq_none_iff.mp ha
    rw [Engine.issue_init_illegal hb hn, Engine.issue_init_illegal (by simpa using hb) hn]; rfl

/-- Settles O11: INIT stands behind the BUSY check alone, and its operand decides between `initLegal` and `initFail`. -/
theorem initStartsComputation : Obligations.InitStartsComputation := by
  unfold Obligations.InitStartsComputation
  refine ⟨by decide, by decide, fun s hb => ⟨?_, ?_, fun a ha => ?_, fun a t ht => ?_⟩,
    fun s c hs hop hc => State.writeCmd_of_illegalWord hs (.inr (.inr (.inl ⟨hop, hc⟩)))⟩
  · rw [exec_eq_issue, Engine.issue_init_legal hb (a := .sha256) rfl]; rfl
  · rw [exec_eq_issue, Engine.issue_init_legal hb (a := .md5) rfl]; rfl
  · rw [exec_eq_issue, Engine.issue_init_illegal hb ha]; rfl
  · rw [exec_eq_issue] at ht
    cases ht
    rw [exec_eq_issue, Engine.issue_init_twice hb]

/-! ### ABORT -/

theorem Engine.issue_abort_reading {e : Engine} (hb : e.busy = false) (he : e.err = false) (hd : e.drv = .reading) :
    e.issue .abort = e.abortReading := by
  simp [Engine.issue, hb, he, Engine.ifReading, hd]

/-- Settles O12: the BUSY check and the driver check of ABORT, and the error it records in READING, which stops every
command but INIT. -/
theorem abortAbandonsComputation : Obligations.AbortAbandonsComputation := by
  unfold Obligations.AbortAbandonsComputation
  refine ⟨by decide, fun s hb he => ?_, fun s ⟨hb, he⟩ => ⟨fun hd => ?_, fun hd => ?_⟩⟩
  · have hissue : s.self.issue .abort = s.self.recordBusyViolation := Engine.unlessBusyOrError_of_busy _ _ hb
    rw [exec_eq_issue, hissue, Engine.recordBusyViolation, he]
    rfl
  · refine ⟨{ s with self := s.self.abortReading }, ?_, rfl, fun i hi => ?_⟩
    · rw [exec_eq_issue, Engine.issue_abort_reading hb he hd]
    · exact exec_of_err (s := { s with self := s.self.abortReading }) hb rfl hi
  · rw [exec_eq_issue, Engine.issue_abort_wrongState hb he hd]
    rfl

/-! ### Who moves DRV and ALG -/

/-- A completion leaves DRV alone or is the commit, which needs the padder DONE. -/
theorem Engine.complete_drv (e : Engine) :
    e.complete.drv = e.drv ∨
    ((∃ n, e.pend = some (.next n)) ∧ e.padState = .done ∧ e.complete.drv = .finished) := by
  rcases e.complete_cases with ⟨-, h⟩ | ⟨n, -, -, h⟩ | ⟨n, -, -, h⟩ | ⟨n, hp, hs, h⟩ | ⟨-, h⟩ <;> rw [h]
  · exact .inl rfl
  · exact .inl rfl
  · exact .inl rfl
  · exact .inr ⟨⟨n, hp⟩, hs, rfl⟩
  · exact .inl rfl

@[simp] theorem Engine.complete_alg (e : Engine) : e.complete.alg = e.alg := by
  rcases e.complete_cases with ⟨-, h⟩ | ⟨n, -, -, h⟩ | ⟨n, -, -, h⟩ | ⟨n, -, -, h⟩ | ⟨-, h⟩ <;> rw [h] <;> rfl

@[simp] theorem Engine.recordBusyViolation_drv (e : Engine) : e.recordBusyViolation.drv = e.drv := by
  rcases e.recordBusyViolation_cases with ⟨-, h⟩ | ⟨-, h⟩ <;> rw [h]
@[simp] theorem Engine.recordBusyViolation_alg (e : Engine) : e.recordBusyViolation.alg = e.alg := by
  rcases e.recordBusyViolation_cases with ⟨-, h⟩ | ⟨-, h⟩ <;> rw [h]

/-- The host moves DRV by reset, INIT and ABORT alone (44_driver.md R185). -/
theorem State.HostChange.drv_eq {s : State} {e e' : Engine} (h : s.HostChange e e') (hne : e'.drv ≠ e.drv) :
    (s.NextReset e.page ∧ e'.drv = .init) ∨
    (s.NextLegalInit e.page ∧ e'.drv = .reading) ∨
    ((∃ c a, s.NextWrite e.page 0 c ∧ decode c = .ok (.init a) ∧ 1 < a) ∧ e'.drv = .init) ∨
    (s.NextWrite e.page 0 0x00000004#32 ∧ e.drv = .reading ∧ e'.drv = .init) := by
  cases h with
  | resets h => exact .inl ⟨h, rfl⟩
  | initLegal _ n a c h hd ha => exact .inr (.inl ⟨State.nextLegalInit_of_write h hd ha, rfl⟩)
  | initFail _ n c h hd hn => exact .inr (.inr (.inl ⟨⟨c, n, h, hd, hn⟩, rfl⟩))
  | abort _ _ hd h => exact .inr (.inr (.inr ⟨h, hd, rfl⟩))
  | _ => exact absurd (by simp) hne

/-- The host changes ALG by INIT and reset alone. -/
theorem State.HostChange.alg_eq {s : State} {e e' : Engine} (h : s.HostChange e e') (hne : e'.alg ≠ e.alg) :
    s.NextReset e.page ∨ s.NextLegalInit e.page := by
  cases h with
  | resets h => exact .inl h
  | initLegal _ n a c h hd ha => exact .inr (State.nextLegalInit_of_write h hd ha)
  | _ => exact absurd (by simp) hne

/-- Settles O36: by the cases of a completion and of the host's changes; that the commit starts from READING is the
invariant's word on a command in flight. -/
theorem driverMovesOnlyAlongTable : Obligations.DriverMovesOnlyAlongTable := by
  unfold Obligations.DriverMovesOnlyAlongTable
  intro s t h k e e' he he' hinv
  rcases (moves_of_step h he he').changes with ⟨j, -, -, rfl⟩ | ⟨hk, -, rfl⟩ | ⟨-, hc⟩
  · exact ⟨fun hne => absurd rfl hne, fun hne => absurd rfl hne⟩
  · refine ⟨fun hne => ?_, fun hne => absurd e.complete_alg hne⟩
    rcases e.complete_drv with hsame | ⟨⟨n, hp⟩, hs, hfin⟩
    · exact absurd hsame hne
    · exact .inr (.inr (.inr (.inr ⟨hk, hinv.drv_of_pend hp, hs, ⟨n, hp⟩, hfin⟩)))
  · refine ⟨fun hne => ?_, hc.alg_eq⟩
    rcases hc.drv_eq hne with h | h | h | h
    · exact .inl h
    · exact .inr (.inl h)
    · exact .inr (.inr (.inl h))
    · exact .inr (.inr (.inr (.inl h)))

end Sys2Proof.Machine
end

section
/-! SUPPORT. A command in flight (44_driver.md R195, R196): what the host can still do to its engine, its completion as one
step, and the step that takes a command. -/

namespace Sys2Proof.Machine

/-! ### Frozen inputs -/

@[simp] theorem Engine.recordBusyViolation_busy (e : Engine) : e.recordBusyViolation.busy = e.busy := by
  rcases e.recordBusyViolation_cases with ⟨-, h⟩ | ⟨-, h⟩ <;> rw [h]
@[simp] theorem Engine.recordBusyViolation_pend (e : Engine) : e.recordBusyViolation.pend = e.pend := by
  rcases e.recordBusyViolation_cases with ⟨-, h⟩ | ⟨-, h⟩ <;> rw [h]

/-- What the host can make of an engine while BUSY: time passes, a write records a violation, or reset. -/
theorem State.HostChange.of_busy {s : State} {e e' : Engine} (h : s.HostChange e e') (hb : e.busy = true) :
    e' = e.tick ∨ e' = e.tick.recordBusyViolation ∨ s.NextReset e.page := by
  cases h with
  | nothing => exact .inl rfl
  | violation => exact .inr (.inl rfl)
  | resets h => exact .inr (.inr h)
  | initLegal hidle | initFail hidle | error hidle | accept hidle | abort hidle | writesH hidle | writesBuf hidle =>
    exact absurd hb (by simp [hidle])

theorem exec_compress_accept {s : State} (hs : s.Ready) (hd : s.self.drv = .reading) :
    exec .compress s = .next { s with self := s.self.accept .compress } := by
  obtain ⟨hb, he⟩ := hs
  rw [exec_eq_issue, Engine.issue_compress_accept hb he hd]

/-- Settles O40: acceptance sets BUSY and PEND, and of what a step can make of a busy engine only its completion and its
reset reach a field that is an input. -/
theorem inFlightInputsAreFrozen : Obligations.InFlightInputsAreFrozen := by
  unfold Obligations.InFlightInputsAreFrozen
  refine ⟨fun s n hs hd => ⟨⟨_, exec_next_accept hs hd n, rfl, rfl⟩, ⟨_, exec_compress_accept hs hd, rfl, rfl⟩⟩,
    fun s t h k e e' he he' hb hk hreset => ?_⟩
  rcases (moves_of_step h he he').changes with ⟨j, -, -, rfl⟩ | ⟨hdue, -, -⟩ | ⟨-, hc⟩
  · simp [hb]
  · exact absurd hdue hk
  · rcases hc.of_busy hb with rfl | rfl | hr
    · simp [hb]
    · simp [hb]
    · exact absurd hr hreset

/-! ### Completion -/

/-- `self` is the first engine, so its completion goes first. -/
theorem step_of_self_due {s : State} (h : s.self.due = true) : step s = .next { s with self := s.self.complete } := by
  have hdue : s.dueEngine = some 0 := by simp [State.dueEngine, State.engines, List.findIdx?_cons, h]
  simp only [step, State.event, hdue, State.withEngine_zero, State.completeSelf, State.command]

theorem Engine.complete_retired {e : Engine} (h : e.pend ≠ none) :
    e.complete.busy = false ∧ e.complete.pend = none := by
  rcases e.complete_cases with ⟨hp, -⟩ | ⟨n, -, -, h'⟩ | ⟨n, -, -, h'⟩ | ⟨n, -, -, h'⟩ | ⟨-, h'⟩
  · exact absurd hp h
  all_goals rw [h']; exact ⟨rfl, rfl⟩

theorem Engine.complete_error (e : Engine) : e.complete.err = e.err ∧ e.complete.errCode = e.errCode := by
  have hsame : e.complete = { e.complete with err := e.err, errCode := e.errCode } :=
    e.complete_withError e.err e.errCode
  constructor <;> rw [hsame]

theorem Engine.pend_of_due {e : Engine} (h : e.due = true) : e.pend ≠ none := by
  simp only [Engine.due, Bool.and_eq_true, Option.isSome_iff_ne_none] at h
  exact h.1

/-- Settles O41: the step is `Engine.complete` on `self`, which retires the command in flight after its effects. -/
theorem completionIsOneStep : Obligations.CompletionIsOneStep := by
  unfold Obligations.CompletionIsOneStep
  intro s hdue
  rw [step_of_self_due hdue]
  refine ⟨fun n hp => ?_, fun hp => ?_, ?_, s.self.complete_withError⟩
  · rw [Engine.complete_next hp, Engine.nextBody]
    cases s.self.padState <;> rfl
  · rw [Engine.complete_compress hp]; rfl
  · obtain ⟨hbusy, hpend⟩ := Engine.complete_retired (Engine.pend_of_due hdue)
    obtain ⟨herr, hcode⟩ := s.self.complete_error
    exact ⟨_, rfl, hbusy, hpend, herr, hcode⟩

/-! ### The step that takes a command -/

/-- Settles O56: the step takes the word written to `self`'s CMD, and a word that decodes runs its command. -/
theorem stepRunsDecodedCommand : Obligations.StepRunsDecodedCommand := by
  unfold Obligations.StepRunsDecodedCommand
  intro s c rest i hdue hq hd
  rw [step_cmdWrite_self hdue hq, State.writeCmd, hd]

end Sys2Proof.Machine
end

section
/-! SUPPORT. Errors (60_exceptions.md R210 to R218): which error one CMD write records, what a recorded error stops, and
every way a step changes ERR and ERRCODE. -/

namespace Sys2Proof.Machine

/-! ### The code as the host reads it -/

/-- Settles O35: the read is the code's four bits, zero-extended, whether or not the engine is busy. -/
theorem errCodeWordLayout : Obligations.ErrCodeWordLayout := by
  unfold Obligations.ErrCodeWordLayout
  intro e w
  have hread : e.readReg w .errcode = (errCodeBits e.errCode).setWidth 32 := rfl
  rw [hread]
  cases e.errCode <;> rfl

/-! ### One CMD write -/

theorem Engine.recordBusyViolation_of_err {e : Engine} (he : e.err = true) : e.recordBusyViolation = e := if_pos he

theorem Engine.recordBusyViolation_of_noErr {e : Engine} (he : e.err = false) :
    e.recordBusyViolation = e.raiseError .busyViolation := by
  simp [Engine.recordBusyViolation, he]

theorem State.writeCmd_of_busy {s : State} (hb : s.self.busy = true) (c : Word) :
    s.writeCmd c = .next { s with self := s.self.recordBusyViolation } := by
  rw [State.writeCmd_eq, Engine.takeWord_of_busy hb]

theorem State.writeCmd_of_decode_ok {c : Word} {i : Instr} (hd : decode c = .ok i) (s : State) :
    s.writeCmd c = .next { s with self := s.self.issue i } := by
  rw [State.writeCmd, hd]
  exact exec_eq_issue i s

/-- While an error is recorded a word that is no INIT is ignored, legal or not (60_exceptions.md R214). -/
theorem State.writeCmd_of_err {s : State} (hb : s.self.busy = false) (he : s.self.err = true) {c : Word}
    (hc : ∀ a, decode c ≠ .ok (.init a)) : s.writeCmd c = .next s := by
  cases hd : decode c with
  | ok i =>
    have hi : ∀ a, i ≠ .init a := fun a hia => hc a (hia ▸ hd)
    rw [State.writeCmd_of_decode_ok hd, Engine.issue_of_err hb he hi]
  | error x =>
    rw [State.writeCmd, hd]
    simp only [execIllegal_eq, Engine.unlessBusyOrError_of_err _ _ hb he]

/-- Settles O6: each clause is the effect of the first check of 44_driver.md R180 and 60_exceptions.md R211 that the
write does not pass. -/
theorem commandWritePriority : Obligations.CommandWritePriority := by
  unfold Obligations.CommandWritePriority
  intro s c
  refine ⟨fun hb he => ?_, fun hb he => ?_, fun hb he => State.writeCmd_of_err hb he, fun hs hd => ?_,
    fun ⟨hb, he⟩ n hd hn => ?_, fun hb a hd ha => ?_, fun ⟨hb, he⟩ hdrv hd => ?_⟩
  · rw [State.writeCmd_of_busy hb, Engine.recordBusyViolation_of_noErr he]; rfl
  · rw [State.writeCmd_of_busy hb, Engine.recordBusyViolation_of_err he]
  · obtain ⟨x, hx⟩ := decode_error_iff_ne_ok.mpr hd
    exact State.writeCmd_of_decode_error hs hx
  · rw [State.writeCmd_of_decode_ok hd, Engine.issue_next_badLength hb he hn]; rfl
  · rw [State.writeCmd_of_decode_ok hd, Engine.issue_init_illegal hb ha]; rfl
  · rcases hd with ⟨n, hn, hd⟩ | hd | hd <;> rw [State.writeCmd_of_decode_ok hd]
    · rw [Engine.issue_next_wrongState hb he hn hdrv]; rfl
    · rw [Engine.issue_compress_wrongState hb he hdrv]; rfl
    · rw [Engine.issue_abort_wrongState hb he hdrv]; rfl

/-! ### What a recorded error stops -/

/-- No register but STATUS and ERRCODE shows the error. -/
theorem Engine.readReg_withError (e : Engine) (b : Bool) (x : ErrCode) (w : Word) {r : WindowReg} (hs : r ≠ .status)
    (hc : r ≠ .errcode) : { e with err := b, errCode := x }.readReg w r = e.readReg w r := by
  cases r with
  | status => exact absurd rfl hs
  | errcode => exact absurd rfl hc
  | cmd | bitCountLo | bitCountHi | h i | buf k | digest k | reserved => rfl

/-- Settles O8: the ERR check stands before commands alone; writes of H and BUF look at BUSY only, and reads of the
other registers at neither ERR nor ERRCODE. -/
theorem errorGatesCommandsOnly : Obligations.ErrorGatesCommandsOnly := by
  unfold Obligations.ErrorGatesCommandsOnly
  intro s hb he
  exact ⟨fun c => State.writeCmd_of_err hb he, State.writeSelf_h_of_idle hb,
    fun k v => ⟨_, State.writeSelf_buf_of_idle hb k v, fun j => bufWithWord_getElem k v s.self.buf j.val j.isLt, rfl⟩,
    fun r w hs hc => (s.self.readReg_withError false .none w hs hc).symm⟩

/-! ### Who changes ERR and ERRCODE -/

/-- Every way a step from `s` leaves ERR and ERRCODE of an engine `e`, which becomes `e'`. -/
inductive State.ErrorChange (s : State) (e e' : Engine) : Prop where
  | kept (herr : e'.err = e.err) (hcode : e'.errCode = e.errCode)
  | clearedByInit (h : s.NextLegalInit e.page) (herr : e'.err = false) (hcode : e'.errCode = .none)
  | clearedByReset (h : s.NextReset e.page) (herr : e'.err = false) (hcode : e'.errCode = .none)
  /-- A failed INIT, whether or not an error was recorded. -/
  | failedInit (h : ∃ c a, s.NextWrite e.page 0 c ∧ decode c = .ok (.init a) ∧ 1 < a) (herr : e'.err = true)
    (hcode : e'.errCode = .invalidConfiguration)
  /-- Any other error, recorded only where none was. -/
  | recorded (hno : e.err = false) (herr : e'.err = true) (hcode : e'.errCode ≠ .none)

theorem State.HostChange.errorChange {s : State} {e e' : Engine} (h : s.HostChange e e') : s.ErrorChange e e' := by
  cases h with
  | nothing | accept | writesH | writesBuf => exact .kept (by simp) (by simp)
  | violation hb =>
    rcases e.tick.recordBusyViolation_cases with ⟨-, h⟩ | ⟨hno, h⟩ <;> rw [h]
    · exact .kept (by simp) (by simp)
    · exact .recorded (by simpa using hno) rfl (by simp)
  | initLegal _ n a c h hd ha => exact .clearedByInit (State.nextLegalInit_of_write h hd ha) rfl rfl
  | resets h => exact .clearedByReset h rfl rfl
  | initFail _ n c h hd hn => exact .failedInit ⟨c, n, h, hd, hn⟩ rfl rfl
  | error _ hno x hx => exact .recorded hno rfl (by rcases hx with rfl | rfl | ⟨rfl, -⟩ <;> simp)
  | abort _ hno => exact .recorded hno rfl (by simp)

/-- A completion keeps ERR and ERRCODE (44_driver.md R196), so a step changes them as the host does. -/
theorem errorChange_of_step {s t : State} (h : step s = .next t) {k : Nat} {e e' : Engine}
    (he : s.engines[k]? = some e) (he' : t.engines[k]? = some e') : s.ErrorChange e e' := by
  rcases (moves_of_step h he he').changes with ⟨j, -, -, rfl⟩ | ⟨-, -, rfl⟩ | ⟨-, hc⟩
  · exact .kept rfl rfl
  · obtain ⟨herr, hcode⟩ := e.complete_error
    exact .kept herr hcode
  · exact hc.errorChange

/-- Settles O13: of the ways a step changes ERR and ERRCODE, three are open to an engine with an error recorded. -/
theorem firstErrorIsKept : Obligations.FirstErrorIsKept := by
  unfold Obligations.FirstErrorIsKept
  intro s t h k e e' he he' herr hne
  cases errorChange_of_step h he he' with
  | kept hsame hcode => exact absurd hne (by simp [hsame, hcode])
  | clearedByInit hinit hclr hcode => exact .inl ⟨hinit, hclr, hcode⟩
  | clearedByReset hreset hclr hcode => exact .inr (.inl ⟨hreset, hclr, hcode⟩)
  | failedInit hinit hset hcode => exact .inr (.inr ⟨hinit, hset, hcode⟩)
  | recorded hno => exact absurd herr (by simp [hno])

/-- A legal INIT written to `self`'s CMD while it is idle takes effect in the step. -/
theorem step_init_self {s : State} {c : Word} {n : Nat} {a : Alg} {rest : List HostOp} (hdue : s.dueEngine = none)
    (hb : s.self.busy = false) (hq : s.queue = cmdWrite s.self.page c :: rest) (hd : decode c = .ok (.init n))
    (ha : algOperand n = some a) :
    step s = .next { s.tick with queue := rest, self := s.self.tick.initLegal a } := by
  rw [step_cmdWrite_self hdue hq, State.writeCmd_of_decode_ok hd]
  simp only [State.tick_self, Engine.issue_init_legal (e := s.self.tick) (by simpa using hb) ha]

theorem State.perform_reset_self (s : State) : s.perform (.reset s.self.page) = .next s.resetSelf := by
  simp only [State.perform]
  rw [State.atWindow_self (by simp)]

/-- The reset signal to `self` takes effect in the step. -/
theorem step_reset_self {s : State} {rest : List HostOp} (hdue : s.dueEngine = none)
    (hq : s.queue = .reset s.self.page :: rest) :
    step s = .next { s.tick with queue := rest }.resetSelf := by
  rw [step_eq_perform hdue hq]
  simpa using State.perform_reset_self { s.tick with queue := rest }

/-- Settles O14: of the ways a step changes ERR and ERRCODE, a legal INIT and reset alone clear one; and each of them,
as the step taken, leaves both cleared. -/
theorem errorsClearedOnlyByResetAndInit : Obligations.ErrorsClearedOnlyByResetAndInit := by
  unfold Obligations.ErrorsClearedOnlyByResetAndInit
  refine ⟨fun s t h k e e' he he' hclear => ?_, fun s rest hdue hb hq => ?_,
    fun s rest hdue hq => ⟨_, step_reset_self hdue hq, rfl, rfl⟩⟩
  · cases errorChange_of_step h he he' with
    | kept hsame hcode =>
      rcases hclear with ⟨hset, hclr⟩ | ⟨hset, hclr⟩
      · exact absurd (hsame.symm.trans hclr) (by simp [hset])
      · exact absurd (hcode.symm.trans hclr) hset
    | clearedByInit hinit => exact .inr hinit
    | clearedByReset hreset => exact .inl hreset
    | failedInit _ herr hcode | recorded _ herr hcode => exact absurd hclear (by simp [herr, hcode])
  · rcases hq with hq | hq
    · exact ⟨_, step_init_self hdue hb hq (n := 0) (a := .md5) (by decide) rfl, rfl, rfl⟩
    · exact ⟨_, step_init_self hdue hb hq (n := 1) (a := .sha256) (by decide) rfl, rfl, rfl⟩

end Sys2Proof.Machine
end

section
/-! SUPPORT. The machine of several engines (60_exceptions.md R217, R221, R227, R229): where a step stops, what it keeps
when nothing is to be done, and that it changes no engine but the one it is about. -/

namespace Sys2Proof.Machine

/-! ### Where a step stops -/

theorem accessPerformed_eq_false_iff {addr : Nat} {width : AccessWidth} :
    accessPerformed addr width = false ↔ width ≠ .w32 ∨ offsetOf addr % 4 ≠ 0 := by
  refine ⟨fun h => ?_, accessPerformed_eq_false⟩
  simpa [accessPerformed, imp_iff_not_or] using h

/-- An operation that no engine faults faults only where there is no window. -/
theorem State.atWindow_fault {s : State} {addr : Nat} {f : State → Host.Outcome State Fault Refusal} {r : Fault}
    (hf : ∀ u, f u ≠ .fault r) (h : s.atWindow addr f = .fault r) : ∀ e ∈ s.engines, e.page ≠ pageOf addr := by
  refine State.findWindow_none.mp ?_
  cases hk : s.findWindow addr with
  | none => rfl
  | some k =>
    simp only [State.atWindow, hk, State.withEngine] at h
    split at h
    case h_2 x hx => cases h; exact absurd hx (hf _)
    all_goals cases h

/-- What a window refuses, its engine refuses. -/
theorem State.refused_of_atWindow {s : State} {addr : Nat} {f : State → Host.Outcome State Fault Refusal}
    {r : Refusal} (h : s.atWindow addr f = .refused r) : ∃ u, f u = .refused r := by
  simp only [State.atWindow, State.withEngine] at h
  split at h
  · split at h
    case h_3 x hx => cases h; exact ⟨_, hx⟩
    all_goals cases h
  · cases h

theorem State.busRead_fault {s : State} {addr : Nat} {w : AccessWidth} {r : Fault} (h : s.busRead addr w = .fault r) :
    ∀ e ∈ s.engines, e.page ≠ pageOf addr :=
  State.atWindow_fault (fun u => by split <;> simp) h

theorem State.busWrite_fault {s : State} {addr : Nat} {w : AccessWidth} {v : Word} {r : Fault}
    (h : s.busWrite addr w v = .fault r) : ∀ e ∈ s.engines, e.page ≠ pageOf addr :=
  State.atWindow_fault (fun u => by rw [State.writeSelf_eq]; split <;> simp) h

theorem State.busRead_refused {s : State} {addr : Nat} {w : AccessWidth} {r : Refusal}
    (h : s.busRead addr w = .refused r) : r = .accessNotPerformed ∧ accessPerformed addr w = false := by
  obtain ⟨u, hu⟩ := State.refused_of_atWindow h
  cases hacc : accessPerformed addr w with
  | true => simp [hacc] at hu
  | false => simpa [hacc, eq_comm] using hu

theorem State.busWrite_refused {s : State} {addr : Nat} {w : AccessWidth} {v : Word} {r : Refusal}
    (h : s.busWrite addr w v = .refused r) : r = .accessNotPerformed ∧ accessPerformed addr w = false := by
  obtain ⟨u, hu⟩ := State.refused_of_atWindow h
  cases hacc : accessPerformed addr w with
  | true => simp [hacc, State.writeSelf_eq] at hu
  | false => simpa [hacc, eq_comm] using hu

/-- A poll faults where its read of STATUS does. -/
theorem State.pollStatus_fault {s : State} {page : Nat} {more : Word → State → State} {r : Fault}
    (h : s.pollStatus page more = .fault r) : ∀ e ∈ s.engines, e.page ≠ page := by
  simp only [State.pollStatus] at h
  split at h
  case h_2 x hx => simpa using State.busRead_fault hx
  all_goals cases h

/-- A poll is a 32-bit read at an aligned offset, which no window refuses. -/
theorem State.pollStatus_ne_refused (s : State) (page : Nat) (more : Word → State → State) (r : Refusal) :
    s.pollStatus page more ≠ .refused r := by
  intro h
  simp only [State.pollStatus] at h
  split at h
  case h_3 x hx => exact absurd (State.busRead_refused hx).2 (by simp [accessPerformed])
  all_goals cases h

/-- A host operation faults only at a page without an engine. -/
theorem State.perform_fault {s : State} {op : HostOp} {r : Fault} (h : s.perform op = .fault r) :
    ∃ page, op.page? = some page ∧ ∀ e ∈ s.engines, e.page ≠ page := by
  cases op with
  | write addr w v => exact ⟨_, rfl, State.busWrite_fault h⟩
  | read addr w => exact ⟨_, rfl, State.busRead_fault h⟩
  | wait page =>
    simp only [State.perform, State.waitOnce] at h
    exact ⟨_, rfl, State.pollStatus_fault h⟩
  | finish page =>
    simp only [State.perform, State.finishOnce] at h
    exact ⟨_, rfl, State.pollStatus_fault h⟩
  | reset page => exact ⟨_, rfl, by simpa using State.atWindow_fault (fun u => by simp) h⟩
  | idle => cases h

/-- A host operation is refused only when it is a bus access that is not performed. -/
theorem State.perform_refused {s : State} {op : HostOp} {r : Refusal} (h : s.perform op = .refused r) :
    r = .accessNotPerformed ∧ ∃ addr w, accessPerformed addr w = false ∧
      (op = .read addr w ∨ ∃ v, op = .write addr w v) := by
  cases op with
  | write addr w v =>
    obtain ⟨hr, hacc⟩ := State.busWrite_refused h
    exact ⟨hr, addr, w, hacc, .inr ⟨v, rfl⟩⟩
  | read addr w =>
    obtain ⟨hr, hacc⟩ := State.busRead_refused h
    exact ⟨hr, addr, w, hacc, .inl rfl⟩
  | wait page =>
    simp only [State.perform, State.waitOnce] at h
    exact absurd h (State.pollStatus_ne_refused _ _ _ _)
  | finish page =>
    simp only [State.perform, State.finishOnce] at h
    exact absurd h (State.pollStatus_ne_refused _ _ _ _)
  | reset page =>
    obtain ⟨u, hu⟩ := State.refused_of_atWindow h
    cases hu
  | idle => cases h

/-- A completion never stops the machine, and neither does time: a step that stops is a host operation that does. -/
theorem stopped_step_performs {s : State} (h : ∀ t, step s ≠ .next t) :
    s.dueEngine = none ∧ ∃ op rest, s.queue = op :: rest ∧ step s = { s.tick with queue := rest }.perform op := by
  cases hdue : s.dueEngine with
  | some k =>
    refine absurd ?_ (h (State.swapIn k { s.swapIn k with self := (s.swapIn k).self.complete }))
    simp only [step, State.event, hdue, State.withEngine, State.completeSelf, State.command]
  | none =>
    cases hq : s.queue with
    | nil =>
      refine absurd ?_ (h s.tick)
      simp only [step, State.event, hdue, State.hostTurn, hq]
    | cons op rest => exact ⟨rfl, op, rest, rfl, step_eq_perform hdue hq⟩

/-- The page a host operation names, by its forms. -/
theorem HostOp.of_page?_eq_some {op : HostOp} {page : Nat} (h : op.page? = some page) :
    op = .wait page ∨ op = .finish page ∨ op = .reset page ∨
      (∃ addr w v, op = .write addr w v ∧ page = pageOf addr) ∨ ∃ addr w, op = .read addr w ∧ page = pageOf addr := by
  cases op with
  | idle => cases h
  | _ => cases h; simp

theorem forall_tick_engines_page_ne {s : State} {page : Nat} {rest : List HostOp}
    (h : ∀ e ∈ { s.tick with queue := rest }.engines, e.page ≠ page) : ∀ e ∈ s.engines, e.page ≠ page := by
  intro e he
  rw [← e.tick_page]
  exact h e.tick (List.mem_map_of_mem he)

/-- Settles O49: a step that stops is a host operation that stops, at a page without an engine or as an access that is
not performed. -/
theorem stopsOnlyAtHostAccesses : Obligations.StopsOnlyAtHostAccesses := by
  unfold Obligations.StopsOnlyAtHostAccesses
  refine fun s => ⟨fun r h => ?_, fun r h => ?_⟩
  · obtain ⟨hdue, op, rest, hq, hstep⟩ := stopped_step_performs (s := s) (by simp [h])
    obtain ⟨page, hpage, hnone⟩ := State.perform_fault (hstep.symm.trans h)
    exact ⟨hdue, op, page, by rw [hq]; rfl, HostOp.of_page?_eq_some hpage, forall_tick_engines_page_ne hnone⟩
  · obtain ⟨hdue, op, rest, hq, hstep⟩ := stopped_step_performs (s := s) (by simp [h])
    obtain ⟨hr, addr, w, hacc, hop⟩ := State.perform_refused (hstep.symm.trans h)
    exact ⟨hr, hdue, addr, w, accessPerformed_eq_false_iff.mp hacc, by simpa [hq] using hop⟩

/-! ### The idle machine -/

/-- Settles O53: nothing is due, so the step is time passing, which an engine with nothing in flight does not notice. -/
theorem idleMachineKeepsState : Obligations.IdleMachineKeepsState := by
  unfold Obligations.IdleMachineKeepsState
  intro s hq hp
  have hdue : s.dueEngine = none := State.dueEngine_none.mpr fun e he => by simp [Engine.due, hp e he]
  have hself : s.self.tick = s.self := Engine.tick_of_none _ (hp _ List.mem_cons_self)
  have hpeers : s.peers.map Engine.tick = s.peers :=
    (List.map_congr_left fun e he => e.tick_of_none (hp e (List.mem_cons_of_mem _ he))).trans (List.map_id' _)
  have htick : s.tick = s := by rw [State.tick, hself, hpeers]
  simp only [step, State.event, hdue, State.hostTurn, hq, htick]

/-! ### Engines apart -/

/-- Where no host write addresses the page, none writes a register of its window. -/
theorem not_nextWrite_of_pageOf_ne {s : State} {page off : Nat} {v : Word}
    (h : ∀ addr w v, s.queue.head? = some (.write addr w v) → pageOf addr ≠ page) : ¬ s.NextWrite page off v :=
  fun ⟨_, hq, hlt, _⟩ => h _ _ _ hq (pageOf_windowAddr_of_lt page off hlt)

/-- Settles O54: of the moves a step can make with an engine, another's completion leaves it, and every one but the
passing of time starts from a write to its window, the reset signal to it, or its own completion. -/
theorem enginesAreIsolated : Obligations.EnginesAreIsolated := by
  unfold Obligations.EnginesAreIsolated
  intro s t h k e e' he he'
  have hmove := moves_of_step h he he'
  refine ⟨fun j hj hjk => ?_, fun hdue hwrite hreset => ?_⟩
  · rcases hmove.changes with ⟨-, -, -, rfl⟩ | ⟨hk, -, -⟩ | ⟨hnone, -⟩
    · rfl
    · exact absurd (Option.some.inj (hj.symm.trans hk)) hjk
    · exact absurd (hj.symm.trans hnone) (by simp)
  · cases hmove with
    | stays j hj => exact absurd (hj.symm.trans hdue) (by simp)
    | completes hk => exact absurd (hk.symm.trans hdue) (by simp)
    | waits => rfl
    | commands _ _ hw | illegal _ _ hw | writesH _ _ _ hw | writesBuf _ _ _ hw =>
      exact absurd hw (not_nextWrite_of_pageOf_ne hwrite)
    | resets hr => exact absurd hr.2 hreset

end Sys2Proof.Machine
end

section
/-! SUPPORT. Reset and hazards (70_reset_and_hazards.md R240 to R254): which BUF bytes a NEXT reads, what the reset signal
leaves, what an engine does before its first INIT, and the end of WAIT. -/

namespace Sys2Proof.Machine

/-! ### The BUF bytes a NEXT reads -/

theorem Engine.bufPrefix_withBuf {e : Engine} {b : Vector Byte 64} {n : Nat}
    (h : ∀ j : Fin 64, j.val < n → b[j] = e.buf[j]) : { e with buf := b }.bufPrefix n = e.bufPrefix n := by
  refine List.ext_getElem (by simp [Engine.bufPrefix]) fun j hj _ => ?_
  simp only [Engine.bufPrefix, List.length_take, Vector.length_toList, Nat.lt_min] at hj
  simpa [Engine.bufPrefix] using h ⟨j, hj.2⟩ hj.1

theorem Engine.nextData_withBuf {e : Engine} {b : Vector Byte 64} {n : Nat}
    (h : ∀ j : Fin 64, j.val < n → b[j] = e.buf[j]) :
    { e with buf := b }.nextData n = { e.nextData n with buf := b } := by
  simp only [Engine.nextData, Engine.bufPrefix_withBuf h]
  rfl

/-- The effects of a NEXT carry the BUF bytes it does not name through unread, the block it leaves in BLK included
(70_reset_and_hazards.md R243). -/
theorem Engine.nextBody_withBuf {e : Engine} {b : Vector Byte 64} {n : Nat}
    (h : e.padState = .reading → ∀ j : Fin 64, j.val < n → b[j] = e.buf[j]) :
    { e with buf := b }.nextBody n = { e.nextBody n with buf := b } := by
  cases hs : e.padState with
  | reading =>
    have hdata := Engine.nextData_withBuf (h hs)
    simpa only [Engine.nextBody, hs] using hdata
  | onePadEmitted => simp only [Engine.nextBody, hs]; rfl
  | done => simp only [Engine.nextBody, hs, Engine.digestCommit]

/-- Settles O18: the completion retires the effects of the NEXT, which agree even before the hidden storage is
blanked. -/
theorem completionReadsOnlyNamedBytes : Obligations.CompletionReadsOnlyNamedBytes := by
  unfold Obligations.CompletionReadsOnlyNamedBytes
  intro e b n hp h
  have hp' : { e with buf := b }.pend = some (.next n) := hp
  rw [Engine.complete_next hp, Engine.complete_next hp', Engine.nextBody_withBuf h]
  rfl

/-! ### Reset -/

/-- Settles O51: the step is `Engine.resetEvent` on `self`, after time has passed. -/
theorem resetEventLeavesResetValues : Obligations.ResetEventLeavesResetValues := by
  unfold Obligations.ResetEventLeavesResetValues
  intro s rest hdue hq
  refine ⟨_, step_reset_self hdue hq, rfl, rfl, rfl, rfl, rfl, rfl, rfl, rfl, rfl, rfl, rfl, rfl, rfl,
    fun i => ?_, fun j => ?_, rfl, rfl, s.self.tick_page, s.self.tick_latencies⟩
  · exact Vector.getElem_ofFn i.isLt
  · exact Vector.getElem_ofFn j.isLt

/-- Outside READING the driver check stops COMPRESS, ABORT and every NEXT of a legal count (60_exceptions.md R211). -/
theorem Engine.issue_wrongState {e : Engine} (hb : e.busy = false) (he : e.err = false) (hd : e.drv ≠ .reading)
    {i : Instr} (hi : i = .compress ∨ i = .abort ∨ ∃ n, n ≤ 64 ∧ i = .next n) :
    e.issue i = e.raiseError .wrongState := by
  rcases hi with rfl | rfl | ⟨n, hn, rfl⟩
  · exact Engine.issue_compress_wrongState hb he hd
  · exact Engine.issue_abort_wrongState hb he hd
  · exact Engine.issue_next_wrongState hb he hn hd

/-- Settles O52: the reset state is an idle machine, and its driver is in INIT. -/
theorem afterResetOnlyInitStarts : Obligations.AfterResetOnlyInitStarts := by
  unfold Obligations.AfterResetOnlyInitStarts
  refine ⟨idleMachineKeepsState State.reset rfl (by simp [State.engines, State.reset, Engine.reset]), fun i hi => ?_⟩
  rw [exec_eq_issue, Engine.issue_wrongState (e := State.reset.self) rfl rfl (by simp [State.reset, Engine.reset]) hi]
  rfl

/-! ### One pass of WAIT -/

/-- Bit 0 of STATUS is BUSY at every read (20_memory.md R60). -/
theorem Engine.readReg_status_busy (e : Engine) (w : Word) : (e.readReg w .status).getLsbD 0 = e.busy := by
  cases hb : e.busy with
  | true => exact (busyReads e w hb).1 0
  | false =>
    have hbit := e.statusWord_getLsbD 0 (by decide)
    simpa [Engine.readReg, hb] using hbit

/-- One poll of `self`: WAIT goes on exactly while the engine is BUSY. -/
theorem State.perform_wait_self (s : State) :
    s.perform (.wait s.self.page) =
      .next (if s.self.busy then (s.readSelf .status).doFirst [.wait s.self.page] else s.readSelf .status) := by
  have hread : s.busRead (windowAddr s.self.page 0x04) .w32 = .next (s.readSelf .status) :=
    s.perform_read_self (off := 0x04) (by decide) (by decide)
  have hbit : ((s.readSelf .status).reads.headD 0).getLsbD 0 = s.self.busy := s.self.readReg_status_busy _
  simp only [State.perform, State.waitOnce, State.pollStatus, hread, hbit]

/-! ### The end of WAIT -/

theorem run_succ_of_step {s t : State} (h : step s = .next t) (k : Nat) :
    Host.Core.run core (k + 1) s = Host.Core.run core k t := by
  have hcore : core.step s = .next t := h
  simp only [Host.Core.run, hcore]

/-- The host waits for `self`, and no other engine has a command in flight. -/
structure State.Waiting (s : State) (rest : List HostOp) : Prop where
  queue : s.queue = .wait s.self.page :: rest
  peers : ∀ p ∈ s.peers, p.pend = none

namespace State.Waiting

variable {s : State} {rest : List HostOp}

theorem peers_tick (h : s.Waiting rest) : s.peers.map Engine.tick = s.peers :=
  (List.map_congr_left fun p hp => p.tick_of_none (h.peers p hp)).trans (List.map_id' _)

theorem dueEngine (h : s.Waiting rest) (hdue : s.self.due = false) : s.dueEngine = none := by
  refine State.dueEngine_none.mpr fun e he => ?_
  rcases List.mem_cons.mp he with rfl | hp
  · exact hdue
  · simp [Engine.due, h.peers e hp]

/-- With no completion due the step is one poll: it makes time pass for `self`, and takes WAIT from the queue exactly
when `self` is not BUSY. -/
theorem step_polls (h : s.Waiting rest) (hdue : s.self.due = false) :
    ∃ t, step s = .next t ∧ t.queue = (if s.self.busy then .wait s.self.page :: rest else rest) ∧
      t.self = s.self.tick ∧ t.peers = s.peers := by
  have hpoll := State.perform_wait_self { s.tick with queue := rest }
  rw [State.tick_self, Engine.tick_page, Engine.tick_busy] at hpoll
  refine ⟨_, (step_eq_perform (h.dueEngine hdue) h.queue).trans hpoll, ?_⟩
  cases s.self.busy with
  | true => exact ⟨rfl, rfl, h.peers_tick⟩
  | false => exact ⟨rfl, rfl, h.peers_tick⟩

/-- With nothing in flight the poll ends WAIT. -/
theorem step_ends (h : s.Waiting rest) (hb : s.self.busy = false) (hp : s.self.pend = none) :
    ∃ t, step s = .next t ∧ t.queue = rest ∧ t.self = s.self ∧ t.peers = s.peers := by
  obtain ⟨t, ht, hq, hself, hpeers⟩ := h.step_polls (by simp [Engine.due, hp])
  exact ⟨t, ht, by simpa [hb] using hq, hself.trans (s.self.tick_of_none hp), hpeers⟩

/-- While LATENCY lasts the poll goes on waiting, one host operation nearer to the completion. -/
theorem step_waits (h : s.Waiting rest) (hb : s.self.busy = true) (hp : s.self.pend ≠ none) {n : Nat}
    (hn : s.self.timer = n + 1) :
    ∃ t, step s = .next t ∧ t.Waiting rest ∧ t.self = { s.self with timer := n } ∧ t.peers = s.peers := by
  have htick : s.self.tick = { s.self with timer := n } := by
    simp [Engine.tick, Option.isSome_iff_ne_none.mpr hp, hn]
  obtain ⟨t, ht, hq, hself, hpeers⟩ := h.step_polls (by simp [Engine.due, hn])
  rw [htick] at hself
  exact ⟨t, ht, ⟨by simpa [hb, hself] using hq, hpeers ▸ h.peers⟩, hself, hpeers⟩

/-- By induction on the LATENCY that is left: polls while it lasts, then the completion, then the poll that ends WAIT. -/
theorem run_ends (n : Nat) (h : s.Waiting rest) (hb : s.self.busy = true) (hp : s.self.pend ≠ none)
    (hn : s.self.timer = n) :
    ∃ t, Host.Core.run core (n + 2) s = .next t ∧ t.queue = rest ∧
      t.self = { s.self with timer := 0 }.complete ∧ t.peers = s.peers := by
  induction n generalizing s with
  | zero =>
    have hdue : s.self.due = true := by simp [Engine.due, Option.isSome_iff_ne_none.mpr hp, hn]
    have hzero : { s.self with timer := 0 } = s.self := by rw [← hn]
    have hdone : State.Waiting { s with self := s.self.complete } rest := ⟨by simpa using h.queue, h.peers⟩
    obtain ⟨hbusy, hpend⟩ := Engine.complete_retired hp
    obtain ⟨t, ht, hq, hself, hpeers⟩ := hdone.step_ends hbusy hpend
    refine ⟨t, ?_, hq, by rw [hself, hzero], hpeers⟩
    rw [run_succ_of_step (step_of_self_due hdue), run_succ_of_step ht]
    rfl
  | succ n ih =>
    obtain ⟨u, hu, hwaiting, hself, hpeers⟩ := h.step_waits hb hp hn
    obtain ⟨t, ht, hq, hdone, hpeers'⟩ :=
      ih hwaiting (by rw [hself]; exact hb) (by rw [hself]; exact hp) (by rw [hself])
    exact ⟨t, (run_succ_of_step hu _).trans ht, hq, by rw [hdone, hself], hpeers'.trans hpeers⟩

end State.Waiting

/-- Settles O42: with nothing in flight the first poll ends WAIT, and a command in flight completes by `run_ends`. -/
theorem waitEnds : Obligations.WaitEnds := by
  unfold Obligations.WaitEnds
  intro s rest hbusy hpeers hq
  have h : s.Waiting rest := ⟨hq, hpeers⟩
  refine ⟨fun hp => ?_, fun hp => ?_⟩
  · obtain ⟨t, ht, hrest⟩ := h.step_ends (by simp [hbusy, hp]) hp
    exact ⟨t, run_succ_of_step ht 0, hrest⟩
  · obtain ⟨t, ht, hrest, hself, hkept⟩ :=
      h.run_ends s.self.timer (hbusy.trans (Option.isSome_iff_ne_none.mpr hp)) hp rfl
    have hretired := (Engine.complete_retired (e := { s.self with timer := 0 }) hp).1
    exact ⟨t, ht, hrest, hself, by rw [hself, hretired], hkept⟩

end Sys2Proof.Machine
end

section
/-! SUPPORT. The decoder against the encoder and the opcode table (30_encoding.md R72, R73, R75): a word decodes to a
command exactly when it is the encoding of that command and its operand fits, and the mask and the match of a row say the
same of the word. -/

namespace Sys2Proof

/-! ### Well-formed operands -/

theorem Instr.wellFormed_init_iff {a : Nat} : (Instr.init a).WellFormed ↔ a < 16 := decide_eq_true_iff

theorem Instr.wellFormed_next_iff {n : Nat} : (Instr.next n).WellFormed ↔ n < 128 := decide_eq_true_iff

/-! ### Round trip -/

theorem decode_of_init_layout {c : Word} (hop : c.toNat % 16 = 1) (hhigh : c.toNat / 256 = 0) :
    decode c = .ok (.init (algField c)) := by
  have hfield : opField c = 1 := (opField_eq c).trans hop
  have hzero : c.extractLsb' 8 24 = 0 := (slice_eq_zero_iff c 8 24).mpr (by omega)
  simp only [decode, hfield, if_pos hzero]

theorem decode_of_next_layout {c : Word} (hlow : c.toNat % 256 = 2) (hhigh : c.toNat / 2 ^ 15 = 0) :
    decode c = .ok (.next (countField c)) := by
  have hfield : opField c = 2 := (opField_eq c).trans (by omega)
  have hzero : c.extractLsb' 4 4 = 0 ∧ c.extractLsb' 15 17 = 0 :=
    ⟨(slice_eq_zero_iff c 4 4).mpr (by omega), (slice_eq_zero_iff c 15 17).mpr (by omega)⟩
  simp only [decode, hfield, if_pos hzero]

/-- The fields of an encoded command are its opcode, its operand and zeros (30_encoding.md R72). -/
theorem decode_encode {i : Instr} (h : i.WellFormed) : decode (encode i) = .ok i := by
  cases i with
  | nop | compress | abort => rfl
  | init a =>
    have ha := Instr.wellFormed_init_iff.mp h
    have hnum := encode_init_toNat ha
    have hfield : algField (encode (.init a)) = a := by rw [algField_eq, hnum]; omega
    rw [decode_of_init_layout (by omega) (by omega), hfield]
  | next n =>
    have hn := Instr.wellFormed_next_iff.mp h
    have hnum := encode_next_toNat hn
    have hfield : countField (encode (.next n)) = n := by rw [countField_eq, hnum]; omega
    rw [decode_of_next_layout (by omega) (by omega), hfield]

/-- By the forms a word can have: in each, the fields the decoder reads and the zeros it checks make up the whole word. -/
theorem encode_of_decode_ok {c : Word} {i : Instr} (h : decode c = .ok i) : i.WellFormed ∧ encode i = c := by
  have of_decode {j : Instr} (hj : decode c = .ok j) : i = j := Except.ok.inj (h.symm.trans hj)
  rcases decode_cases c with ⟨rfl, hd⟩ | ⟨hop, hhigh, hd⟩ | ⟨hlow, hhigh, hd⟩ | ⟨rfl, hd⟩ | ⟨rfl, hd⟩ | ⟨-, x, hx⟩
  case inr.inr.inr.inr.inr => exact absurd (h.symm.trans hx) (by simp)
  case inr.inl =>
    obtain rfl := of_decode hd
    refine ⟨Instr.wellFormed_init_iff.mpr (algField_lt c), BitVec.eq_of_toNat_eq ?_⟩
    rw [encode_init_toNat (algField_lt c), algField_eq]
    omega
  case inr.inr.inl =>
    obtain rfl := of_decode hd
    refine ⟨Instr.wellFormed_next_iff.mpr (countField_lt c), BitVec.eq_of_toNat_eq ?_⟩
    rw [encode_next_toNat (countField_lt c), countField_eq]
    omega
  all_goals
    obtain rfl := of_decode hd
    exact ⟨rfl, rfl⟩

theorem decode_eq_ok_iff {c : Word} {i : Instr} : decode c = .ok i ↔ i.WellFormed ∧ encode i = c :=
  ⟨encode_of_decode_ok, fun ⟨h, hc⟩ => hc ▸ decode_encode h⟩

/-- Settles O2: the word by its fields; the bytes are that word's in bus order. -/
theorem decodeOfEncodeIsIdentity : Obligations.DecodeOfEncodeIsIdentity := by
  unfold Obligations.DecodeOfEncodeIsIdentity
  refine fun i h => ⟨decode_encode h, fun rest => ?_⟩
  rw [encodeBytes, decodeBytes_le32bytes, decode_encode h]

/-- Settles O3: by the forms a word that decodes can have. -/
theorem encodeOfDecodeIsIdentity : Obligations.EncodeOfDecodeIsIdentity :=
  fun _ _ => encode_of_decode_ok

/-- Settles O1: each word is the encoding of its command. -/
theorem specWordsDecode : Obligations.SpecWordsDecode :=
  ⟨decode_encode (i := .nop) rfl, decode_encode (i := .init 0) rfl, decode_encode (i := .init 1) rfl,
    decode_encode (i := .init 15) rfl, decode_encode (i := .next 3) rfl, decode_encode (i := .next 64) rfl,
    decode_encode (i := .next 127) rfl, decode_encode (i := .compress) rfl, decode_encode (i := .abort) rfl⟩

/-! ### The opcode table -/

/-- A field moved back to its place is the word under the field's mask (00_scope.md R7). -/
theorem extractLsb'_setWidth_shiftLeft (c : Word) (start len : Nat) :
    (c.extractLsb' start len).setWidth 32 <<< start = c &&& (BitVec.allOnes len).setWidth 32 <<< start := by
  apply BitVec.eq_of_getLsbD_eq
  intro i hi
  by_cases hstart : i < start
  · simp [hstart]
  · have hback : start + (i - start) = i := by omega
    simp [hstart, hback, hi, Bool.and_comm]

theorem encode_init_algField (c : Word) : encode (.init (algField c)) = c &&& 0x000000F0#32 ||| 0x00000001#32 := by
  rw [encode, Nat.mod_eq_of_lt (algField_lt c), algField, BitVec.ofNat_toNat, extractLsb'_setWidth_shiftLeft]
  rfl

theorem encode_next_countField (c : Word) :
    encode (.next (countField c)) = c &&& 0x00007F00#32 ||| 0x00000002#32 := by
  rw [encode, Nat.mod_eq_of_lt (countField_lt c), countField, BitVec.ofNat_toNat, extractLsb'_setWidth_shiftLeft]
  rfl

theorem and_or_and_not (c m : Word) : c &&& m ||| c &&& ~~~m = c := by
  rw [← BitVec.and_or_distrib_left, BitVec.or_not_self, BitVec.and_allOnes]

/-- A row without an operand has the full mask. -/
theorem decode_eq_ok_iff_and_mask {i : Instr} (h : i.WellFormed) (c : Word) :
    decode c = .ok i ↔ c &&& 0xFFFFFFFF#32 = encode i := by
  have hmask : c &&& 0xFFFFFFFF#32 = c := BitVec.and_allOnes
  rw [hmask, decode_eq_ok_iff]
  exact ⟨fun ⟨_, hc⟩ => hc.symm, fun hc => ⟨h, hc.symm⟩⟩

/-- The row of INIT leaves open the ALG field alone, so the match and the field make up the word. -/
theorem decode_init_iff (c : Word) (a : Nat) :
    decode c = .ok (.init a) ↔ c &&& 0xFFFFFF0F#32 = 0x00000001#32 ∧ a = c.toNat / 2 ^ 4 % 2 ^ 4 := by
  constructor
  · intro h
    obtain ⟨hwf, rfl⟩ := encode_of_decode_ok h
    have ha := Instr.wellFormed_init_iff.mp hwf
    exact ⟨Laws.MatchesRow.init a hwf, by rw [encode_init_toNat ha]; omega⟩
  · rintro ⟨hmatch, ha⟩
    obtain rfl : a = algField c := ha.trans (algField_eq c).symm
    have hword : encode (.init (algField c)) = c := by
      rw [encode_init_algField, ← hmatch]
      exact and_or_and_not c 0x000000F0#32
    exact decode_eq_ok_iff.mpr ⟨Instr.wellFormed_init_iff.mpr (algField_lt c), hword⟩

/-- The row of NEXT leaves open the N field alone. -/
theorem decode_next_iff (c : Word) (n : Nat) :
    decode c = .ok (.next n) ↔ c &&& 0xFFFF80FF#32 = 0x00000002#32 ∧ n = c.toNat / 2 ^ 8 % 2 ^ 7 := by
  constructor
  · intro h
    obtain ⟨hwf, rfl⟩ := encode_of_decode_ok h
    have hn := Instr.wellFormed_next_iff.mp hwf
    exact ⟨Laws.MatchesRow.next n hwf, by rw [encode_next_toNat hn]; omega⟩
  · rintro ⟨hmatch, hn⟩
    obtain rfl : n = countField c := hn.trans (countField_eq c).symm
    have hword : encode (.next (countField c)) = c := by
      rw [encode_next_countField, ← hmatch]
      exact and_or_and_not c 0x00007F00#32
    exact decode_eq_ok_iff.mpr ⟨Instr.wellFormed_next_iff.mpr (countField_lt c), hword⟩

/-- Settles O4: row by row, each row's mask leaving open no bit but the operand's. -/
theorem decodeMatchesOpcodeTable : Obligations.DecodeMatchesOpcodeTable := by
  unfold Obligations.DecodeMatchesOpcodeTable
  exact fun c => ⟨decode_eq_ok_iff_and_mask rfl c, decode_init_iff c, decode_next_iff c,
    decode_eq_ok_iff_and_mask rfl c, decode_eq_ok_iff_and_mask rfl c⟩

end Sys2Proof
end

section
/-! SUPPORT. The frame of a command (10_state.md R41, 44_driver.md R180): the outcomes of `Engine.issue` apart from ERR and
ERRCODE, and what each kind of command leaves unchanged of its engine. -/

namespace Sys2Proof.Machine

/-- Apart from ERR and ERRCODE only INIT, the acceptance of NEXT or COMPRESS, and ABORT in READING change an engine. -/
theorem Engine.issue_outcomes (i : Instr) (e : Engine) :
    (∃ b x, e.issue i = { e with err := b, errCode := x }) ∨
    (∃ n, i = .init n ∧ ((∃ a, e.issue i = e.initLegal a) ∨ e.issue i = e.initFail)) ∨
    ((i = .compress ∨ ∃ n, i = .next n) ∧ ∃ c, e.issue i = e.accept c) ∨
    (i = .abort ∧ e.issue i = e.abortReading) := by
  rcases e.issue_cases i with ⟨-, h⟩ | ⟨-, -, -, h⟩ | ⟨-, -, -, h⟩ | ⟨-, n, a, hi, -, h⟩ | ⟨-, n, hi, -, h⟩ |
    ⟨-, -, n, -, -, h⟩ | ⟨-, -, -, -, h⟩ | ⟨-, -, -, ⟨n, hi, h⟩ | ⟨hi, h⟩ | ⟨hi, h⟩⟩
  · rcases e.recordBusyViolation_cases with ⟨-, hv⟩ | ⟨-, hv⟩
    · exact .inl ⟨e.err, e.errCode, h.trans hv⟩
    · exact .inl ⟨true, .busyViolation, h.trans hv⟩
  · exact .inl ⟨e.err, e.errCode, h⟩
  · exact .inl ⟨e.err, e.errCode, h⟩
  · exact .inr (.inl ⟨n, hi, .inl ⟨a, h⟩⟩)
  · exact .inr (.inl ⟨n, hi, .inr h⟩)
  · exact .inl ⟨true, .badLength, h⟩
  · exact .inl ⟨true, .wrongState, h⟩
  · exact .inr (.inr (.inl ⟨.inr ⟨n.val, hi⟩, .next n, h⟩))
  · exact .inr (.inr (.inl ⟨.inl hi, .compress, h⟩))
  · exact .inr (.inr (.inr ⟨hi, h⟩))

@[simp] theorem Engine.issue_buf (i : Instr) (e : Engine) : (e.issue i).buf = e.buf := by
  rcases e.issue_outcomes i with ⟨b, x, h⟩ | ⟨n, -, ⟨a, h⟩ | h⟩ | ⟨-, c, h⟩ | ⟨-, h⟩ <;> rw [h] <;> rfl
@[simp] theorem Engine.issue_page (i : Instr) (e : Engine) : (e.issue i).page = e.page := by
  rcases e.issue_outcomes i with ⟨b, x, h⟩ | ⟨n, -, ⟨a, h⟩ | h⟩ | ⟨-, c, h⟩ | ⟨-, h⟩ <;> rw [h] <;> rfl
@[simp] theorem Engine.issue_scratch (i : Instr) (e : Engine) : (e.issue i).scratch = e.scratch := by
  rcases e.issue_outcomes i with ⟨b, x, h⟩ | ⟨n, -, ⟨a, h⟩ | h⟩ | ⟨-, c, h⟩ | ⟨-, h⟩ <;> rw [h] <;> rfl

/-- Only INIT writes the registers of a computation inside the CMD write (44_driver.md R181). -/
theorem Engine.issue_keeps_computation {i : Instr} (hi : ∀ a, i ≠ .init a) (e : Engine) :
    (e.issue i).h = e.h ∧ (e.issue i).bitCount = e.bitCount ∧ (e.issue i).padState = e.padState ∧
      (e.issue i).alg = e.alg ∧ (e.issue i).digest = e.digest := by
  rcases e.issue_outcomes i with ⟨b, x, h⟩ | ⟨n, hn, -⟩ | ⟨-, c, h⟩ | ⟨-, h⟩
  case inr.inl => exact absurd hn (hi n)
  all_goals rw [h]; exact ⟨rfl, rfl, rfl, rfl, rfl⟩

/-- No command but NEXT and COMPRESS is ever in flight (44_driver.md R195). -/
theorem Engine.issue_keeps_flight {i : Instr} (hi : i = .nop ∨ i = .abort ∨ ∃ a, i = .init a) (e : Engine) :
    (e.issue i).busy = e.busy ∧ (e.issue i).pend = e.pend ∧ (e.issue i).timer = e.timer ∧
      (e.issue i).latencies = e.latencies := by
  rcases e.issue_outcomes i with ⟨b, x, h⟩ | ⟨n, -, ⟨a, h⟩ | h⟩ | ⟨hacc, -⟩ | ⟨-, h⟩
  case inr.inr.inl => rcases hacc with rfl | ⟨n, rfl⟩ <;> simp at hi
  all_goals rw [h]; exact ⟨rfl, rfl, rfl, rfl⟩

/-- At acceptance neither NEXT nor COMPRESS moves the driver. -/
theorem Engine.issue_keeps_driver {i : Instr} (hi : i = .nop ∨ i = .compress ∨ ∃ n, i = .next n) (e : Engine) :
    (e.issue i).drv = e.drv ∧ (e.issue i).digestValid = e.digestValid := by
  rcases e.issue_outcomes i with ⟨b, x, h⟩ | ⟨n, rfl, -⟩ | ⟨-, c, h⟩ | ⟨rfl, -⟩
  case inr.inl | inr.inr.inr => simp at hi
  all_goals rw [h]; exact ⟨rfl, rfl⟩

/-- Settles O7: the command acts on `self` alone, and each clause about `self` is one frame of `Engine.issue`. -/
theorem commandFrame : Obligations.CommandFrame := by
  unfold Obligations.CommandFrame
  intro i s
  refine ⟨_, exec_eq_issue i s, rfl, rfl, rfl, rfl, s.self.issue_buf i, s.self.issue_page i, s.self.issue_scratch i,
    fun k v w => ?_, fun hi => Engine.issue_keeps_computation hi _, fun hi => Engine.issue_keeps_flight hi _,
    fun hi => Engine.issue_keeps_driver hi _⟩
  simp only [Engine.readReg, Engine.issue_buf]

end Sys2Proof.Machine
end

section
/-! SUPPORT. The shift and the rotations bit by bit (00_scope.md R8). -/

namespace Sys2Proof.Machine

theorem rotr_getLsbD (x : Word) {n i : Nat} (hn : n < 32) (hi : i < 32) :
    (rotr x n).getLsbD i = x.getLsbD ((i + n) % 32) := by
  rw [rotr_eq_rotateRight x n hn, BitVec.getLsbD_rotateRight, Nat.mod_eq_of_lt hn]
  by_cases hlow : i < 32 - n
  · have hstay : (i + n) % 32 = n + i := by omega
    simp [hlow, hstay]
  · have hwrap : (i + n) % 32 = i - (32 - n) := by omega
    simp [hlow, hi, hwrap]

theorem rotl_eq_rotr (x : Word) {n : Nat} (hn : n ≤ 32) : rotl x n = rotr x (32 - n) := by
  rw [rotl, rotr, Nat.sub_sub_self hn, BitVec.or_comm]

theorem shr_getLsbD (x : Word) (n i : Nat) : (shr x n).getLsbD i = (decide (i + n < 32) && x.getLsbD (i + n)) := by
  rw [shr, BitVec.getLsbD_ushiftRight, Nat.add_comm n i]
  by_cases hin : i + n < 32
  · simp [hin]
  · simp [hin, BitVec.getLsbD_of_ge x (i + n) (by omega)]

/-- Settles O33: the rotation to the left is read as one to the right. -/
theorem rotationsBitwise : Obligations.RotationsBitwise := by
  unfold Obligations.RotationsBitwise
  intro x n i hpos hn hi
  refine ⟨rotr_getLsbD x (by omega) hi, ?_, shr_getLsbD x n i⟩
  rw [rotl_eq_rotr x (by omega), rotr_getLsbD x (by omega) hi]

end Sys2Proof.Machine
end

section
/-! SUPPORT. The window map (20_memory.md R52), range by range. -/

namespace Sys2Proof.Machine

theorem windowReg_h_offset : ∀ i : Fin 8, windowReg (0x20 + 4 * i.val) = .h i := by decide
theorem windowReg_buf_offset : ∀ k : Fin 16, windowReg (0x40 + 4 * k.val) = .buf k := by decide
theorem windowReg_digest_offset : ∀ k : Fin 8, windowReg (0x80 + 4 * k.val) = .digest k := by decide

theorem windowReg_of_ge {off : Nat} (h : 0xA0 ≤ off) : windowReg off = .reserved := by
  unfold windowReg
  repeat rw [if_neg (by omega)]
  repeat rw [dif_neg (by omega)]

/-- Settles O43: the single offsets by evaluation, the others by their range. -/
theorem windowMap : Obligations.WindowMap :=
  ⟨rfl, rfl, rfl, rfl, rfl, rfl, rfl, rfl, windowReg_h_offset, windowReg_buf_offset, windowReg_digest_offset,
    fun _ => windowReg_of_ge⟩

end Sys2Proof.Machine
end

section
/-! SUPPORT. The reset state (10_state.md R40). -/

namespace Sys2Proof.Machine

/-- Settles O50: each value is a field of the reset state, and STATUS is packed from them. -/
theorem resetStateValues : Obligations.ResetStateValues :=
  ⟨rfl, rfl, rfl, rfl, rfl, rfl, rfl, rfl, rfl, rfl, rfl⟩

/-- The invariant does not speak of H, BUF and the hidden storage, which are all that a reset event leaves otherwise. -/
theorem Engine.reset_inv : Engine.reset.Inv := Engine.Inv.resetEvent Engine.reset 0

/-- Settles O59: one engine, in its reset state. -/
theorem resetSatisfiesInvariant : Obligations.ResetSatisfiesInvariant := by
  unfold Obligations.ResetSatisfiesInvariant
  have hengines : State.reset.engines = [Engine.reset] := rfl
  exact ⟨by simpa [hengines] using Engine.reset_inv, by simp [hengines]⟩

end Sys2Proof.Machine
end
